-- ==== Sys2Proof/Word.lean ====
section
/-! DEFINITION. The widths of the miniESCOMIPS: data words, addresses and instruction words. -/

namespace Sys2Proof

/-- A general register and a data-memory word: `XLEN` = 8 bits (10_state.md R22, R35; log 1). -/
abbrev Word := BitVec 8

/-- The pc, a data address or a program address: 8 bits (10_state.md R26; 20_memory.md R41, R43). -/
abbrev Addr := BitVec 8

/-- An instruction word and a program-memory cell: exactly 15 bits (30_encoding.md R60; 20_memory.md R43). -/
abbrev InstrWord := BitVec 15

end Sys2Proof
end

