-- ==== Sys2Proof/Syntax.lean ====
section
/-! DEFINITION. The syntax: the four registers, the six branch conditions, and one constructor of `Instr` for each of the
23 rows of the opcode table (00_scope.md R2). -/

namespace Sys2Proof

/-- The four general registers `R0`..`R3` = `x[0]`..`x[3]` (10_state.md R21, R23). -/
inductive Reg where
  | r0
  | r1
  | r2
  | r3
  deriving DecidableEq, Repr

/-- The six branch conditions, by the names of Tabla 1 (45_cond_branch.md R151). -/
inductive Cond where
  | EQ
  | NEQ
  | LT
  | LET
  | GT
  | GET
  deriving DecidableEq, Repr

/-- The 23 instructions, operands in the order of the fields from bit 9 downward (30_encoding.md R71, R76).
`unused` is a row's "S/U" bits. They are kept so that no bit of a word is lost; no meaning reads them (R72; log 10). -/
inductive Instr where
  /-- `LI Rd, #Slit8` (R100) -/
  | li (rd : Reg) (slit8 : BitVec 8)
  /-- `LWI Rd, lit8` (R101) -/
  | lwi (rd : Reg) (lit8 : Addr)
  /-- `SWI Rd, lit8`: the `Rd` field names the source (R102) -/
  | swi (rd : Reg) (lit8 : Addr)
  /-- `ADD Rd,Rs1,Rs2` (R111) -/
  | add (rd rs1 rs2 : Reg)
  /-- `SUB Rd,Rs1,Rs2` (R112) -/
  | sub (rd rs1 rs2 : Reg)
  /-- `ADDI Rd,Rs1,#Slit6` (R113) -/
  | addi (rd rs1 : Reg) (slit6 : BitVec 6)
  /-- `SUBI Rd,Rs1,#Slit6` (R114) -/
  | subi (rd rs1 : Reg) (slit6 : BitVec 6)
  /-- `AND Rd,Rs1,Rs2` (R121) -/
  | and (rd rs1 rs2 : Reg)
  /-- `OR Rd,Rs1,Rs2` (R122) -/
  | or (rd rs1 rs2 : Reg)
  /-- `XOR Rd,Rs1,Rs2` (R123) -/
  | xor (rd rs1 rs2 : Reg)
  /-- `NAND Rd,Rs1,Rs2` (R124) -/
  | nand (rd rs1 rs2 : Reg)
  /-- `NOR Rd,Rs1,Rs2` (R125) -/
  | nor (rd rs1 rs2 : Reg)
  /-- `XNOR Rd,Rs1,Rs2` (R126) -/
  | xnor (rd rs1 rs2 : Reg)
  /-- `B lit8` (R130) -/
  | b (unused : BitVec 2) (lit8 : Addr)
  /-- `CP Rs1, Rs2`: bits 9..8 are unused (R141) -/
  | cp (unused : BitVec 2) (rs1 rs2 : Reg)
  /-- `CPI Rd, #Slit8`: the `Rd` field names the register compared (R142) -/
  | cpi (rd : Reg) (slit8 : BitVec 8)
  /-- `BEQ lit8` (R154) -/
  | beq (unused : BitVec 2) (lit8 : Addr)
  /-- `BNEQ lit8` (R155) -/
  | bneq (unused : BitVec 2) (lit8 : Addr)
  /-- `BLT lit8` (R156) -/
  | blt (unused : BitVec 2) (lit8 : Addr)
  /-- `BLET lit8` (R157) -/
  | blet (unused : BitVec 2) (lit8 : Addr)
  /-- `BGT lit8` (R158) -/
  | bgt (unused : BitVec 2) (lit8 : Addr)
  /-- `BGET lit8` (R159) -/
  | bget (unused : BitVec 2) (lit8 : Addr)
  /-- `NOP`: bits 9..0 are unused (R170) -/
  | nop (unused : BitVec 10)
  deriving DecidableEq, Repr

end Sys2Proof
end

