-- ==== Sys2Proof/WellFormed.lean ====
section
/-! DEFINITION. Well-formed instructions: the check of the unused bits that `STRICT_UNUSED` switches on (30_encoding.md R72).
Every other operand is legal at every value of its type (R66, R67). -/

namespace Sys2Proof

/-- The unused ("S/U") bits of an instruction are all zero; an instruction without such bits has none to check (R72). -/
def Instr.unusedZero : Instr → Bool
  | .b u _ | .cp u _ _ | .beq u _ | .bneq u _ | .blt u _ | .blet u _ | .bgt u _ | .bget u _ => u == 0#2
  | .nop u => u == 0#10
  | .li _ _ | .lwi _ _ | .swi _ _ | .cpi _ _ => true
  | .add _ _ _ | .sub _ _ _ | .addi _ _ _ | .subi _ _ _ => true
  | .and _ _ _ | .or _ _ _ | .xor _ _ _ | .nand _ _ _ | .nor _ _ _ | .xnor _ _ _ => true

/-- Well-formed under `STRICT_UNUSED = strict`: when it is set, the unused bits are zero (R72). -/
def Instr.wellFormed (strict : Bool) (i : Instr) : Bool :=
  !strict || i.unusedZero

end Sys2Proof
end

