-- ==== Sys2Proof/Decode.lean ====
section
/-! DEFINITION. The decoder, total on every 15-bit word and rejecting by name (30_encoding.md R65 to R73), and after it the
encoder, written from the same tables (R61 to R64, R68, R69, R71). -/

namespace Sys2Proof

/-- Why a word is no instruction. -/
inductive Reject where
  /-- `OPCODE` is 15..31 (R73). -/
  | unassignedOpcode
  /-- `OPCODE` is 0 and `FUNCTION` is 9..15 (R73). -/
  | unassignedFunction
  /-- `STRICT_UNUSED` is set and an unused bit is not zero (R72). -/
  | unusedBitsSet
  deriving DecidableEq, Repr

/-- The decoder's verdict on a word: an instruction, or "invalid" with the reason (R73). -/
inductive Verdict where
  | instr (i : Instr)
  | invalid (why : Reject)
  deriving DecidableEq, Repr

/-- A 2-bit register field selects `x[0]`..`x[3]` (R21, R66). -/
def Reg.ofField (f : BitVec 2) : Reg :=
  match f.toNat with
  | 0 => .r0
  | 1 => .r1
  | 2 => .r2
  | _ => .r3

/-- `OPCODE = ir[14:10]` (R60). -/
def opcodeField (w : InstrWord) : BitVec 5 := w.extractLsb' 10 5

/-- `FUNCTION = ir[3:0]` (R61). -/
def functionField (w : InstrWord) : BitVec 4 := w.extractLsb' 0 4

/-- Bits 9..8 as they stand: the unused field of layout J and of CP (R64, R72). -/
def bits98 (w : InstrWord) : BitVec 2 := w.extractLsb' 8 2

/-- Bits 9..0 as they stand: all of them unused in NOP (R72). -/
def bits90 (w : InstrWord) : BitVec 10 := w.extractLsb' 0 10

/-- `Rd = ir[9:8]` (R66). -/
def rdField (w : InstrWord) : Reg := Reg.ofField (w.extractLsb' 8 2)

/-- `Rs1 = ir[7:6]` (R66). -/
def rs1Field (w : InstrWord) : Reg := Reg.ofField (w.extractLsb' 6 2)

/-- `Rs2 = ir[5:4]` (R66). -/
def rs2Field (w : InstrWord) : Reg := Reg.ofField (w.extractLsb' 4 2)

/-- `ir[7:0]`: Slit8 or lit8 (R67). -/
def imm8Field (w : InstrWord) : BitVec 8 := w.extractLsb' 0 8

/-- `ir[5:0]`: Slit6 (R67). -/
def imm6Field (w : InstrWord) : BitVec 6 := w.extractLsb' 0 6

/-- Layout R, `OPCODE = 0`: the instruction is a function of `FUNCTION` alone (R65, R69). -/
def decodeR (w : InstrWord) : Verdict :=
  match (functionField w).toNat with
  | 0 => .instr (.add (rdField w) (rs1Field w) (rs2Field w))
  | 1 => .instr (.sub (rdField w) (rs1Field w) (rs2Field w))
  | 2 => .instr (.and (rdField w) (rs1Field w) (rs2Field w))
  | 3 => .instr (.or (rdField w) (rs1Field w) (rs2Field w))
  | 4 => .instr (.xor (rdField w) (rs1Field w) (rs2Field w))
  | 5 => .instr (.nand (rdField w) (rs1Field w) (rs2Field w))
  | 6 => .instr (.nor (rdField w) (rs1Field w) (rs2Field w))
  | 7 => .instr (.xnor (rdField w) (rs1Field w) (rs2Field w))
  | 8 => .instr (.cp (bits98 w) (rs1Field w) (rs2Field w))
  | _ => .invalid .unassignedFunction

/-- The word as an instruction, its unused bits kept whatever they are (R65, R68). -/
def decodeWord (w : InstrWord) : Verdict :=
  match (opcodeField w).toNat with
  | 0 => decodeR w
  | 1 => .instr (.li (rdField w) (imm8Field w))
  | 2 => .instr (.lwi (rdField w) (imm8Field w))
  | 3 => .instr (.swi (rdField w) (imm8Field w))
  | 4 => .instr (.addi (rdField w) (rs1Field w) (imm6Field w))
  | 5 => .instr (.subi (rdField w) (rs1Field w) (imm6Field w))
  | 6 => .instr (.b (bits98 w) (imm8Field w))
  | 7 => .instr (.cpi (rdField w) (imm8Field w))
  | 8 => .instr (.beq (bits98 w) (imm8Field w))
  | 9 => .instr (.bneq (bits98 w) (imm8Field w))
  | 10 => .instr (.blt (bits98 w) (imm8Field w))
  | 11 => .instr (.blet (bits98 w) (imm8Field w))
  | 12 => .instr (.bgt (bits98 w) (imm8Field w))
  | 13 => .instr (.bget (bits98 w) (imm8Field w))
  | 14 => .instr (.nop (bits90 w))
  | _ => .invalid .unassignedOpcode

/-- The decoder under `STRICT_UNUSED = strict` (R65, R72, R73). -/
def decode (strict : Bool) (w : InstrWord) : Verdict :=
  match decodeWord w with
  | .instr i => if i.wellFormed strict then .instr i else .invalid .unusedBitsSet
  | .invalid e => .invalid e

/-- The instruction word in the low bits of a number. A container's bits above 14 are no part of the machine
(20_memory.md R43; log 12). -/
def wordOfNat (nbits w : Nat) : InstrWord := BitVec.ofNat 15 (w % 2 ^ nbits)

/-- The host's question: the instruction the decoder reads from a word numbered as the opcode table numbers it, under the
default `STRICT_UNUSED = false` (R3). -/
def decodeTableWord (nbits w : Nat) : Option Instr :=
  match decode false (wordOfNat nbits w) with
  | .instr i => some i
  | .invalid _ => none

/-- The 2-bit field that selects a register (R21, R66). -/
def Reg.toField : Reg → BitVec 2
  | .r0 => 0b00#2
  | .r1 => 0b01#2
  | .r2 => 0b10#2
  | .r3 => 0b11#2

/-- Layout R: OPCODE 5 (zero), Rd 2, Rs1 2, Rs2 2, FUNCTION 4 (R61). -/
def encodeR (rd : BitVec 2) (rs1 rs2 : Reg) (function : BitVec 4) : InstrWord :=
  0b00000#5 ++ rd ++ rs1.toField ++ rs2.toField ++ function

/-- Layouts I8 and J: OPCODE 5, a 2-bit field, 8 bits of constant or address (R62, R64). -/
def encode8 (opcode : BitVec 5) (field : BitVec 2) (imm : BitVec 8) : InstrWord :=
  opcode ++ field ++ imm

/-- Layout I6: OPCODE 5, Rd 2, Rs1 2, 6 bits of constant (R63). -/
def encode6 (opcode : BitVec 5) (rd rs1 : Reg) (imm : BitVec 6) : InstrWord :=
  opcode ++ rd.toField ++ rs1.toField ++ imm

/-- The word of an instruction (R71). -/
def encode : Instr → InstrWord
  | .li rd imm => encode8 0b00001#5 rd.toField imm
  | .lwi rd a => encode8 0b00010#5 rd.toField a
  | .swi rd a => encode8 0b00011#5 rd.toField a
  | .add rd rs1 rs2 => encodeR rd.toField rs1 rs2 0b0000#4
  | .sub rd rs1 rs2 => encodeR rd.toField rs1 rs2 0b0001#4
  | .addi rd rs1 imm => encode6 0b00100#5 rd rs1 imm
  | .subi rd rs1 imm => encode6 0b00101#5 rd rs1 imm
  | .and rd rs1 rs2 => encodeR rd.toField rs1 rs2 0b0010#4
  | .or rd rs1 rs2 => encodeR rd.toField rs1 rs2 0b0011#4
  | .xor rd rs1 rs2 => encodeR rd.toField rs1 rs2 0b0100#4
  | .nand rd rs1 rs2 => encodeR rd.toField rs1 rs2 0b0101#4
  | .nor rd rs1 rs2 => encodeR rd.toField rs1 rs2 0b0110#4
  | .xnor rd rs1 rs2 => encodeR rd.toField rs1 rs2 0b0111#4
  | .b u a => encode8 0b00110#5 u a
  | .cp u rs1 rs2 => encodeR u rs1 rs2 0b1000#4
  | .cpi rd imm => encode8 0b00111#5 rd.toField imm
  | .beq u a => encode8 0b01000#5 u a
  | .bneq u a => encode8 0b01001#5 u a
  | .blt u a => encode8 0b01010#5 u a
  | .blet u a => encode8 0b01011#5 u a
  | .bgt u a => encode8 0b01100#5 u a
  | .bget u a => encode8 0b01101#5 u a
  | .nop u => 0b01110#5 ++ u

end Sys2Proof
end

