-- ==== Sys2Proof/Config.lean ====
section
/-! DEFINITION. What the spec leaves to an implementation (the parameters of 00_scope.md R3 that a step reads), and the
one free value of the model. -/

namespace Sys2Proof

/-- `CMP_MODE`: how LT, LET, GT and GET read the flags (00_scope.md R3; 45_cond_branch.md R151, R152). OPEN in the spec. -/
inductive CmpMode where
  | signed
  | unsigned
  deriving DecidableEq, Repr

/-- `SUB_CARRY`: what flag C means after a subtraction (00_scope.md R3; 10_state.md R30). -/
inductive SubCarry where
  /-- C = 1 when there was no borrow. -/
  | carry
  /-- C = 1 when there was a borrow. -/
  | borrow
  deriving DecidableEq, Repr

/-- The parameters that change what a step does. The spec's "Parameters a model takes as arguments"
(92_eei_decisions.md), less `XLEN` (log 1) and `RESET_PC` (an argument of `State.launch`).
They stand in `State` and no step changes them (DESIGN CHOICE, safe: log 6). -/
structure Params where
  /-- `CMP_MODE` (R3, R151, R152). -/
  cmpMode : CmpMode
  /-- `ARITH_WRITES_FLAGS` (R3, R31, R116, R120). -/
  arithWritesFlags : Bool
  /-- `SUB_CARRY` (R3, R30). -/
  subCarry : SubCarry
  /-- `STRICT_UNUSED` (R3, R72). -/
  strictUnused : Bool
  deriving DecidableEq, Repr

/-- FREE VALUE. What a data-memory cell holds that neither the launch nor an SWI has written: "an unspecified value"
(20_memory.md R42; 40_load_store.md R101). A function of the address, so that two reads of one cell agree (R48).
No body: nothing can be proved of the value. DESIGN CHOICE, safe within one run (log 4). -/
opaque Config.unwrittenData : Addr → Word

end Sys2Proof
end

