-- ==== Sys2Proof/Machine/Params.lean ====
section
/-! DEFINITION. The values the machine starts from where the spec gives a default (00_scope.md R3) or leaves the value
unspecified (70_reset_and_hazards.md R200). -/

namespace Sys2Proof.Machine

/-- The spec's default of each parameter (R3). `CMP_MODE` is OPEN in the spec and `signed` its default:
DESIGN CHOICE, unsafe (log 7). -/
def defaultParams : Params :=
  { cmpMode := .signed, arithWritesFlags := true, subCarry := .carry, strictUnused := false }

/-- `RESET_PC` = 0 (R3, R200, R201). -/
def resetPc : Addr := 0#8

/-- The value of every general register at reset. The spec leaves it unspecified (R200): DESIGN CHOICE, unsafe (log 2). -/
def resetRegister : Word := 0#8

/-- The value of every flag at reset. The spec leaves it unspecified (R200): DESIGN CHOICE, unsafe (log 3). -/
def resetFlag : Bool := false

end Sys2Proof.Machine
end

