-- ==== Sys2Proof/Machine/State.lean ====
section
/-! DEFINITION. The state of the machine: the five things of 10_state.md R20 and the parameters, with the reasons a step can
stop and the state after reset. -/

namespace Sys2Proof.Machine

/-- The four general registers (R20, R21). None is hardwired (R24). -/
structure Regs where
  r0 : Word
  r1 : Word
  r2 : Word
  r3 : Word
  deriving DecidableEq, Repr

/-- The status register `Reg_edo`: four separate flags, no layout (R29). -/
structure Flags where
  c : Bool
  n : Bool
  z : Bool
  ov : Bool
  deriving DecidableEq, Repr

/-- The whole state of the machine (R20), and the parameters of R3 beside it (log 6). Both memories are lists of (address, content)
in the canonical form `Memory.wf`: a cell that nothing has defined is not listed (R200). -/
structure State where
  /-- `x[0]`..`x[3]` (R20, R21) -/
  regs : Regs
  /-- the program counter (R26): the address of the instruction being executed (R27) -/
  pc : Addr
  /-- `Reg_edo` (R29) -/
  flags : Flags
  /-- `DMem`, 256 words of 8 bits (R35, R41) -/
  dmem : List Host.Cell
  /-- `IMem`, 256 words of 15 bits (R34, R43): its own space (R40), never written by the program -/
  imem : List (Nat × InstrWord)
  /-- the model's own field: the parameters of R3 that a step reads; no step changes them (DESIGN CHOICE, safe: log 6) -/
  params : Params
  deriving DecidableEq, Repr

/-- Why the machine faults. The hardware raises no exception (60_exceptions.md R180). -/
inductive Fault where
  /-- Raised by `step` alone: the pc names a program cell that no image defines (R182, R200). Safe: the spec gives the word no
  value and lets the model fault (log 5). -/
  | undefinedProgramWord
  deriving DecidableEq, Repr

/-- Why the model has no step. -/
inductive Refusal where
  /-- Raised by an arm of `exec` that has no meaning yet: no arm of this model. Safe. -/
  | notModelled (mnemonic : String)
  /-- Raised by `step` alone: the fetched word spells no instruction, or has an unused bit set under `STRICT_UNUSED`
  (R72, R73, R181). Safe: nothing can be proved of a run that reaches it (log 9). -/
  | illegalWord (why : Reject)
  deriving DecidableEq, Repr

/-- What a step answers. -/
abbrev Result := Host.Outcome State Fault Refusal

/-- The machine right after reset with no image in either memory (70_reset_and_hazards.md R200, R201; logs 2, 3, 7). -/
def State.reset : State :=
  { regs := { r0 := resetRegister, r1 := resetRegister, r2 := resetRegister, r3 := resetRegister }
    pc := resetPc
    flags := { c := resetFlag, n := resetFlag, z := resetFlag, ov := resetFlag }
    dmem := []
    imem := []
    params := defaultParams }

end Sys2Proof.Machine
end

