-- ==== Sys2Proof/Machine/Ops.lean ====
section
/-! DEFINITION. The named operations over registers, flags, the pc and the two memories. There is no operation for taking an
exception: the machine has none (60_exceptions.md R180, R183, R185, R186). -/

namespace Sys2Proof.Machine

/-- The content of cell `a`, or none where nothing has defined it (20_memory.md R42, R43). -/
def Memory.read? {w : Nat} : List (Nat × BitVec w) → Nat → Option (BitVec w)
  | [], _ => none
  | (k, v) :: rest, a => if k = a then some v else Memory.read? rest a

/-- Writes one cell and keeps the list in order; an unlisted cell has no value, so a written cell is always listed (R42; log 4). -/
def Memory.write {w : Nat} : List (Nat × BitVec w) → Nat → BitVec w → List (Nat × BitVec w)
  | [], a, v => [(a, v)]
  | (k, u) :: rest, a, v =>
    if a < k then (a, v) :: (k, u) :: rest
    else if a = k then (a, v) :: rest
    else (k, u) :: Memory.write rest a v

/-- The addresses rise strictly, start no lower than `lo` and stay below 256. -/
def Memory.risesFrom {w : Nat} : Nat → List (Nat × BitVec w) → Bool
  | _, [] => true
  | lo, (k, _) :: rest => decide (lo ≤ k) && decide (k < 256) && Memory.risesFrom (k + 1) rest

/-- The canonical form: addresses strictly rising, all in 0..255 (R41, R43). -/
def Memory.wf {w : Nat} (m : List (Nat × BitVec w)) : Bool :=
  Memory.risesFrom 0 m

/-- The memory an image defines, a later entry for an address replacing an earlier one (60_exceptions.md R193). -/
def Memory.ofImage {w : Nat} : List (Addr × BitVec w) → List (Nat × BitVec w) → List (Nat × BitVec w)
  | [], m => m
  | (a, v) :: rest, m => Memory.ofImage rest (Memory.write m a.toNat v)

/-- `x[i]` (00_scope.md R7). -/
def Regs.get (r : Regs) : Reg → Word
  | .r0 => r.r0
  | .r1 => r.r1
  | .r2 => r.r2
  | .r3 => r.r3

/-- `x[i] <- v` (00_scope.md R7); all four are ordinary registers (10_state.md R24). -/
def Regs.set (r : Regs) (i : Reg) (v : Word) : Regs :=
  match i with
  | .r0 => { r with r0 := v }
  | .r1 => { r with r1 := v }
  | .r2 => { r with r2 := v }
  | .r3 => { r with r3 := v }

/-- Reads a general register (R7). -/
def State.reg (s : State) (i : Reg) : Word := s.regs.get i

/-- Writes a general register (R7). -/
def State.setReg (s : State) (i : Reg) (v : Word) : State := { s with regs := s.regs.set i v }

/-- Writes all four flags of `Reg_edo` (R7, R29). -/
def State.setFlags (s : State) (f : Flags) : State := { s with flags := f }

/-- `pc <- pc + 1` modulo 256 (10_state.md R27). -/
def State.advance (s : State) : State := { s with pc := s.pc + 1#8 }

/-- `pc <- t` (R7). -/
def State.jump (s : State) (t : Addr) : State := { s with pc := t }

/-- The content of data cell `a`, none where neither the launch nor an SWI has written it (R42). -/
def State.dataCell (s : State) (a : Addr) : Option Word := Memory.read? s.dmem a.toNat

/-- `MemRead(a, 1)`: always succeeds; a cell never written gives a free value (R42; log 4). -/
def State.load (s : State) (a : Addr) : Word :=
  match s.dataCell a with
  | some v => v
  | none => Config.unwrittenData a

/-- `MemWrite(a, 1, v)`: always succeeds and changes that cell alone (R42, R48). -/
def State.store (s : State) (a : Addr) (v : Word) : State :=
  { s with dmem := Memory.write s.dmem a.toNat v }

/-- `IMem[a]`, none where no image defines it (R43, R200). -/
def State.instrWord (s : State) (a : Addr) : Option InstrWord := Memory.read? s.imem a.toNat

/-- `ir = IMem[pc]` (R43). -/
def State.fetch (s : State) : Option InstrWord := s.instrWord s.pc

/-- The host places one instruction word before the run (60_exceptions.md R193); no instruction does this (R55). -/
def State.placeWord (s : State) (a : Addr) (w : InstrWord) : State :=
  { s with imem := Memory.write s.imem a.toNat w }

end Sys2Proof.Machine
end

