-- ==== Sys2Proof/Machine/Flags.lean ====
section
/-! DEFINITION. The adder with flags, the flags of a logic result, and the branch conditions (10_state.md R30;
45_cond_branch.md R151, R152). -/

namespace Sys2Proof.Machine

/-- `add_flags(a, b, cin)` (R30). -/
def addFlags (a b : Word) (cin : Bool) : Word × Flags :=
  let sum : BitVec 9 := a.setWidth 9 + b.setWidth 9 + (BitVec.ofBool cin).setWidth 9
  let r : Word := sum.extractLsb' 0 8
  (r, { c := sum.getLsbD 8
        n := r.getLsbD 7
        z := r == 0#8
        ov := a.getLsbD 7 == b.getLsbD 7 && r.getLsbD 7 != a.getLsbD 7 })

/-- Flag C after a subtraction, from the adder's carry out (R30, `SUB_CARRY`). -/
def subCarryFlag (p : SubCarry) (carryOut : Bool) : Bool :=
  match p with
  | .carry => carryOut
  | .borrow => !carryOut

/-- A subtraction `a - b` is `add_flags(a, ~b, 1)` (R30). -/
def subFlags (p : SubCarry) (a b : Word) : Word × Flags :=
  let (r, f) := addFlags a (~~~b) true
  (r, { f with c := subCarryFlag p f.c })

/-- The flags after a logic result: N and Z of it, C and OV kept (R30; 42_logic.md R120). -/
def logicFlags (old : Flags) (r : Word) : Flags :=
  { old with n := r.getLsbD 7, z := r == 0#8 }

/-- "Less than" as the flags tell it: N xor OV when signed (R151), a borrow when unsigned (R152). Under `SUB_CARRY = borrow` the
unsigned equation reads C inverted (DEDUCED from 92_eei_decisions.md D6: log 8). -/
def lessThan (p : Params) (f : Flags) : Bool :=
  match p.cmpMode with
  | .signed => f.n ^^ f.ov
  | .unsigned => !subCarryFlag p.subCarry f.c

/-- `cond(k)` on the stored flags (R151, R152). -/
def condition (p : Params) (k : Cond) (f : Flags) : Bool :=
  match k with
  | .EQ => f.z
  | .NEQ => !f.z
  | .LT => lessThan p f
  | .LET => f.z || lessThan p f
  | .GT => !f.z && !lessThan p f
  | .GET => !lessThan p f

end Sys2Proof.Machine
end

