-- ==== Sys2Proof/Machine/Operands.lean ====
section
/-! DEFINITION. The operand forms: how a literal field becomes an operand (30_encoding.md R67). A register operand is read by
`State.reg` (R66). -/

namespace Sys2Proof.Machine

/-- `sext_XLEN(ir[7:0])`: the constant of LI and CPI (R67). -/
def slit8 (field : BitVec 8) : Word := field.signExtend 8

/-- `sext_XLEN(ir[5:0])`: the constant of ADDI and SUBI, -32..31 (R67). -/
def slit6 (field : BitVec 6) : Word := field.signExtend 8

/-- `lit8`: the 8 bits are the whole address, unsigned, unscaled (R67). -/
def lit8 (field : BitVec 8) : Addr := field

end Sys2Proof.Machine
end

