-- ==== Sys2Proof/Machine/Arithmetic.lean ====
section
/-! DEFINITION. Arithmetic: ADD, SUB, ADDI, SUBI (41_arithmetic.md R110 to R116). -/

namespace Sys2Proof.Machine

/-- What the four share: the result goes to `Rd`, the four flags to `Reg_edo` when `ARITH_WRITES_FLAGS`, and the pc advances
(R110, R116). -/
def State.finishArithmetic (s : State) (rd : Reg) (out : Word × Flags) : State :=
  ((s.setReg rd out.1).setFlags (if s.params.arithWritesFlags then out.2 else s.flags)).advance

/-- ADD (R111). -/
def execAdd (rd rs1 rs2 : Reg) (s : State) : Result :=
  .next (s.finishArithmetic rd (addFlags (s.reg rs1) (s.reg rs2) false))

/-- SUB (R112): first source minus second source. -/
def execSub (rd rs1 rs2 : Reg) (s : State) : Result :=
  .next (s.finishArithmetic rd (subFlags s.params.subCarry (s.reg rs1) (s.reg rs2)))

/-- ADDI (R113). -/
def execAddi (rd rs1 : Reg) (imm : BitVec 6) (s : State) : Result :=
  .next (s.finishArithmetic rd (addFlags (s.reg rs1) (slit6 imm) false))

/-- SUBI (R114). -/
def execSubi (rd rs1 : Reg) (imm : BitVec 6) (s : State) : Result :=
  .next (s.finishArithmetic rd (subFlags s.params.subCarry (s.reg rs1) (slit6 imm)))

end Sys2Proof.Machine
end

