-- ==== Sys2Proof/Machine/Compare.lean ====
section
/-! DEFINITION. Comparison: CP and CPI (44_compare.md R140 to R143). -/

namespace Sys2Proof.Machine

/-- What the two share: the flags of first minus second operand go to `Reg_edo` whatever `ARITH_WRITES_FLAGS` is, the difference is
discarded, and the pc advances (R140). -/
def State.finishCompare (s : State) (first second : Word) : State :=
  (s.setFlags (subFlags s.params.subCarry first second).2).advance

/-- CP (R141): `x[Rs1] - x[Rs2]`. -/
def execCp (rs1 rs2 : Reg) (s : State) : Result :=
  .next (s.finishCompare (s.reg rs1) (s.reg rs2))

/-- CPI (R142): `x[Rd] - sext(ir[7:0])`. -/
def execCpi (rd : Reg) (imm : BitVec 8) (s : State) : Result :=
  .next (s.finishCompare (s.reg rd) (slit8 imm))

end Sys2Proof.Machine
end

