-- ==== Sys2Proof/Machine/CondBranch.lean ====
section
/-! DEFINITION. The conditional branches (45_cond_branch.md R150 to R160). -/

namespace Sys2Proof.Machine

/-- `if cond(k): pc <- ir[7:0] else: pc <- pc + 1` (R150). -/
def State.branchOn (s : State) (k : Cond) (a : Addr) : State :=
  if condition s.params k s.flags then s.jump (lit8 a) else s.advance

/-- BEQ (R154). -/
def execBeq (a : Addr) (s : State) : Result := .next (s.branchOn .EQ a)

/-- BNEQ (R155). -/
def execBneq (a : Addr) (s : State) : Result := .next (s.branchOn .NEQ a)

/-- BLT (R156). -/
def execBlt (a : Addr) (s : State) : Result := .next (s.branchOn .LT a)

/-- BLET (R157). -/
def execBlet (a : Addr) (s : State) : Result := .next (s.branchOn .LET a)

/-- BGT (R158). -/
def execBgt (a : Addr) (s : State) : Result := .next (s.branchOn .GT a)

/-- BGET (R159). -/
def execBget (a : Addr) (s : State) : Result := .next (s.branchOn .GET a)

end Sys2Proof.Machine
end

