-- ==== Sys2Proof/Machine/Jump.lean ====
section
/-! DEFINITION. The unconditional jump B (43_jump.md R130 to R132). -/

namespace Sys2Proof.Machine

/-- B (R130): `pc <- ir[7:0]`, and nothing else. -/
def execB (a : Addr) (s : State) : Result :=
  .next (s.jump (lit8 a))

end Sys2Proof.Machine
end

