-- ==== Sys2Proof/Machine/LoadStore.lean ====
section
/-! DEFINITION. Load and store: LI, LWI, SWI (40_load_store.md R100 to R103). -/

namespace Sys2Proof.Machine

/-- LI (R100): `x[Rd] <- sext(ir[7:0])`. -/
def execLi (rd : Reg) (imm : BitVec 8) (s : State) : Result :=
  .next (s.setReg rd (slit8 imm)).advance

/-- LWI (R101): `x[Rd] <- MemRead(ir[7:0], 1)`. -/
def execLwi (rd : Reg) (a : Addr) (s : State) : Result :=
  .next (s.setReg rd (s.load (lit8 a))).advance

/-- SWI (R102): `MemWrite(ir[7:0], 1, x[Rd])`. -/
def execSwi (rd : Reg) (a : Addr) (s : State) : Result :=
  .next (s.store (lit8 a) (s.reg rd)).advance

end Sys2Proof.Machine
end

