-- ==== Sys2Proof/Machine/Logic.lean ====
section
/-! DEFINITION. Logic: AND, OR, XOR, NAND, NOR, XNOR (42_logic.md R120 to R127). -/

namespace Sys2Proof.Machine

/-- What the six share: the result goes to `Rd`, its N and Z to `Reg_edo` when `ARITH_WRITES_FLAGS`, and the pc advances (R120). -/
def State.finishLogic (s : State) (rd : Reg) (r : Word) : State :=
  ((s.setReg rd r).setFlags (if s.params.arithWritesFlags then logicFlags s.flags r else s.flags)).advance

/-- AND (R121). -/
def execAnd (rd rs1 rs2 : Reg) (s : State) : Result :=
  .next (s.finishLogic rd (s.reg rs1 &&& s.reg rs2))

/-- OR (R122). -/
def execOr (rd rs1 rs2 : Reg) (s : State) : Result :=
  .next (s.finishLogic rd (s.reg rs1 ||| s.reg rs2))

/-- XOR (R123). -/
def execXor (rd rs1 rs2 : Reg) (s : State) : Result :=
  .next (s.finishLogic rd (s.reg rs1 ^^^ s.reg rs2))

/-- NAND (R124). -/
def execNand (rd rs1 rs2 : Reg) (s : State) : Result :=
  .next (s.finishLogic rd (~~~(s.reg rs1 &&& s.reg rs2)))

/-- NOR (R125). -/
def execNor (rd rs1 rs2 : Reg) (s : State) : Result :=
  .next (s.finishLogic rd (~~~(s.reg rs1 ||| s.reg rs2)))

/-- XNOR (R126). -/
def execXnor (rd rs1 rs2 : Reg) (s : State) : Result :=
  .next (s.finishLogic rd (~~~(s.reg rs1 ^^^ s.reg rs2)))

end Sys2Proof.Machine
end

