-- ==== Sys2Proof/Machine/Other.lean ====
section
/-! DEFINITION. NOP (46_other.md R170); there is no system instruction (R171). -/

namespace Sys2Proof.Machine

/-- NOP (R170): the pc advances, and nothing else happens. -/
def execNop (s : State) : Result :=
  .next s.advance

end Sys2Proof.Machine
end

