-- ==== Sys2Proof/Machine/Dispatch.lean ====
section
/-! DEFINITION. The dispatch: one arm for each constructor of `Instr`, each one call of a meaning. -/

namespace Sys2Proof.Machine

def exec (i : Instr) (s : State) : Host.Outcome State Fault Refusal :=
  match i with
  -- load and store
  | .li rd slit8 => Sys2Proof.Machine.execLi rd slit8 s
  | .lwi rd lit8 => Sys2Proof.Machine.execLwi rd lit8 s
  | .swi rd lit8 => Sys2Proof.Machine.execSwi rd lit8 s
  -- arithmetic
  | .add rd rs1 rs2 => Sys2Proof.Machine.execAdd rd rs1 rs2 s
  | .sub rd rs1 rs2 => Sys2Proof.Machine.execSub rd rs1 rs2 s
  | .addi rd rs1 slit6 => Sys2Proof.Machine.execAddi rd rs1 slit6 s
  | .subi rd rs1 slit6 => Sys2Proof.Machine.execSubi rd rs1 slit6 s
  -- logic
  | .and rd rs1 rs2 => Sys2Proof.Machine.execAnd rd rs1 rs2 s
  | .or rd rs1 rs2 => Sys2Proof.Machine.execOr rd rs1 rs2 s
  | .xor rd rs1 rs2 => Sys2Proof.Machine.execXor rd rs1 rs2 s
  | .nand rd rs1 rs2 => Sys2Proof.Machine.execNand rd rs1 rs2 s
  | .nor rd rs1 rs2 => Sys2Proof.Machine.execNor rd rs1 rs2 s
  | .xnor rd rs1 rs2 => Sys2Proof.Machine.execXnor rd rs1 rs2 s
  -- jump
  | .b _ lit8 => Sys2Proof.Machine.execB lit8 s
  -- comparison
  | .cp _ rs1 rs2 => Sys2Proof.Machine.execCp rs1 rs2 s
  | .cpi rd slit8 => Sys2Proof.Machine.execCpi rd slit8 s
  -- conditional branches
  | .beq _ lit8 => Sys2Proof.Machine.execBeq lit8 s
  | .bneq _ lit8 => Sys2Proof.Machine.execBneq lit8 s
  | .blt _ lit8 => Sys2Proof.Machine.execBlt lit8 s
  | .blet _ lit8 => Sys2Proof.Machine.execBlet lit8 s
  | .bgt _ lit8 => Sys2Proof.Machine.execBgt lit8 s
  | .bget _ lit8 => Sys2Proof.Machine.execBget lit8 s
  -- other
  | .nop _ => Sys2Proof.Machine.execNop s

end Sys2Proof.Machine
end

