-- ==== Sys2Proof/Machine/Step.lean ====
section
/-! DEFINITION. One step: fetch, decode, execute (00_scope.md R7; 60_exceptions.md R184). -/

namespace Sys2Proof.Machine

/-- One instruction: a fetch of an undefined program word faults (R200); a word that decodes to no instruction is refused before any
operand is read (R181, R184). -/
def step (s : State) : Host.Outcome State Fault Refusal :=
  match s.fetch with
  | none => .fault .undefinedProgramWord
  | some w =>
    match decode s.params.strictUnused w with
    | .instr i => exec i s
    | .invalid why => .refused (.illegalWord why)

/-- The state with one instruction word where the next step fetches it: the program cell at the pc (R43; log 11). -/
def State.withFetchWord (s : State) (nbits w : Nat) : State :=
  s.placeWord s.pc (wordOfNat nbits w)

end Sys2Proof.Machine
end

