-- ==== Sys2Proof/Machine/Launch.lean ====
section
/-! DEFINITION. The launch: what the host sets up before the first step (60_exceptions.md R193; 70_reset_and_hazards.md R200). -/

namespace Sys2Proof.Machine

/-- The machine reset with a program image and a data image, the parameters and `RESET_PC` as arguments (R3, R193, R200, R201).
`regs` and `flags` are what the spec leaves unspecified at reset: a claim for every `regs` and `flags` is a claim for every power-up
(R182). -/
def State.launch (params : Params) (pc0 : Addr) (regs : Regs) (flags : Flags)
    (program : List (Addr × InstrWord)) (data : List (Addr × Word)) : State :=
  { regs := regs
    pc := pc0
    flags := flags
    dmem := Memory.ofImage data []
    imem := Memory.ofImage program []
    params := params }

end Sys2Proof.Machine
end

