-- ==== Sys2Proof/Safety.lean ====
section
/-! DEFINITION. What counts as a well-kept state and a finished run, and the vocabulary the statements use: frames, and the tables of
the spec (operand roles, flags, conditions) written down a second time, apart from the meanings, so that a statement compares the
two. -/

namespace Sys2Proof.Machine

/-- Both memories are in canonical form: addresses strictly rising, all in 0..255 (20_memory.md R41, R43). -/
def State.Inv (s : State) : Prop :=
  Memory.wf s.dmem = true ∧ Memory.wf s.imem = true

/-- The end of a run: the pc holds the address of a `B` to itself (60_exceptions.md R192; log 15). -/
def State.isFinal (s : State) : Bool :=
  match s.fetch with
  | none => false
  | some w =>
    match decode s.params.strictUnused w with
    | .instr (.b _ a) => a == s.pc
    | _ => false

/-- A step is safe when it neither faults nor is refused. -/
def SafeStep (s : State) : Prop :=
  ∃ t, step s = .next t

/-- Instructions executed one after another in the order given (R52). -/
def execAll : List Instr → State → Result
  | [], s => .next s
  | i :: rest, s =>
    match exec i s with
    | .next t => execAll rest t
    | .fault r => .fault r
    | .refused r => .refused r

/-! ### Frames -/

/-- Every general register but `rd` is unchanged. -/
def RegsKeptBut (rd : Reg) (s t : State) : Prop :=
  ∀ r, r ≠ rd → t.reg r = s.reg r

/-- Every general register is unchanged. -/
def RegsKept (s t : State) : Prop :=
  ∀ r, t.reg r = s.reg r

/-- Every data cell reads as before, and is defined or not as before. -/
def DataKept (s t : State) : Prop :=
  ∀ a : Nat, Memory.read? t.dmem a = Memory.read? s.dmem a

/-- Every program cell reads as before, and the parameters stand. -/
def ProgramKept (s t : State) : Prop :=
  (∀ a : Nat, Memory.read? t.imem a = Memory.read? s.imem a) ∧ t.params = s.params

/-- The pc is the next address modulo 256 (10_state.md R27). -/
def PcAdvanced (s t : State) : Prop :=
  t.pc.toNat = (s.pc.toNat + 1) % 256

/-! ### Encodings -/

/-- The word decodes to the instruction, whatever `STRICT_UNUSED` is. -/
def Decodes (w : InstrWord) (i : Instr) : Prop :=
  ∀ strict, decode strict w = .instr i

/-- The word decodes to the instruction with its unused bits ignored, and is refused when `STRICT_UNUSED` is set and one of them is
not zero (30_encoding.md R72). -/
def DecodesUnused {n : Nat} (unused : BitVec n) (w : InstrWord) (i : Instr) : Prop :=
  decode false w = .instr i ∧
    decode true w = (if unused = 0 then .instr i else .invalid .unusedBitsSet)

/-- `OPCODE` 15..31, or `OPCODE` 0 with `FUNCTION` 9..15, read off the word as a number (30_encoding.md R73). -/
def Unassigned (w : InstrWord) : Prop :=
  15 ≤ w.toNat / 1024 ∨ (w.toNat / 1024 = 0 ∧ 9 ≤ w.toNat % 16)

/-! ### Operand roles (10_state.md R25) -/

/-- The register an instruction writes. -/
def destination : Instr → Option Reg
  | .li rd _ | .lwi rd _ | .addi rd _ _ | .subi rd _ _ => some rd
  | .add rd _ _ | .sub rd _ _ | .and rd _ _ | .or rd _ _ | .xor rd _ _ | .nand rd _ _ | .nor rd _ _ | .xnor rd _ _ => some rd
  | .swi _ _ | .cpi _ _ | .cp _ _ _ | .b _ _ | .nop _ => none
  | .beq _ _ | .bneq _ _ | .blt _ _ | .blet _ _ | .bgt _ _ | .bget _ _ => none

/-- The registers an instruction reads. -/
def sources : Instr → List Reg
  | .swi rd _ | .cpi rd _ => [rd]
  | .addi _ rs1 _ | .subi _ rs1 _ => [rs1]
  | .add _ rs1 rs2 | .sub _ rs1 rs2 | .and _ rs1 rs2 | .or _ rs1 rs2 | .xor _ rs1 rs2 => [rs1, rs2]
  | .nand _ rs1 rs2 | .nor _ rs1 rs2 | .xnor _ rs1 rs2 | .cp _ rs1 rs2 => [rs1, rs2]
  | .li _ _ | .lwi _ _ | .b _ _ | .nop _ => []
  | .beq _ _ | .bneq _ _ | .blt _ _ | .blet _ _ | .bgt _ _ | .bget _ _ => []

/-- The data address an instruction stores to (R102); only SWI has one. -/
def storesTo : Instr → Option Addr
  | .swi _ a => some a
  | .li _ _ | .lwi _ _ | .cpi _ _ | .b _ _ | .cp _ _ _ | .nop _ => none
  | .add _ _ _ | .sub _ _ _ | .addi _ _ _ | .subi _ _ _ => none
  | .and _ _ _ | .or _ _ _ | .xor _ _ _ | .nand _ _ _ | .nor _ _ _ | .xnor _ _ _ => none
  | .beq _ _ | .bneq _ _ | .blt _ _ | .blet _ _ | .bgt _ _ | .bget _ _ => none

/-- The last column of Tabla 1 (10_state.md R31). -/
inductive FlagsColumn where
  /-- "Ninguna": no flag is written. -/
  | ninguna
  /-- "NZ", when `ARITH_WRITES_FLAGS`. -/
  | logic
  /-- "CNZOV", when `ARITH_WRITES_FLAGS`. -/
  | arithmetic
  /-- "CNZOV", always. -/
  | comparison
  deriving DecidableEq, Repr

/-- Tabla 1's flags column, row by row (R31). -/
def flagsColumn : Instr → FlagsColumn
  | .li _ _ | .lwi _ _ | .swi _ _ | .b _ _ | .nop _ => .ninguna
  | .beq _ _ | .bneq _ _ | .blt _ _ | .blet _ _ | .bgt _ _ | .bget _ _ => .ninguna
  | .add _ _ _ | .sub _ _ _ | .addi _ _ _ | .subi _ _ _ => .arithmetic
  | .and _ _ _ | .or _ _ _ | .xor _ _ _ | .nand _ _ _ | .nor _ _ _ | .xnor _ _ _ => .logic
  | .cp _ _ _ | .cpi _ _ => .comparison

/-! ### Flags (10_state.md R30) -/

/-- The flags of the sum of `a` and `b`, in the arithmetic terms of R30. -/
def SumFlags (a b : Word) (f : Flags) : Prop :=
  f.c = decide (256 ≤ a.toNat + b.toNat) ∧
  f.n = decide ((a + b).toInt < 0) ∧
  f.z = decide (a + b = 0) ∧
  f.ov = decide (a.toInt + b.toInt < -128 ∨ 127 < a.toInt + b.toInt)

/-- The flags of the difference of `a` and `b`, in the arithmetic terms of R30. -/
def DifferenceFlags (p : SubCarry) (a b : Word) (f : Flags) : Prop :=
  (p = .carry → f.c = decide (b.toNat ≤ a.toNat)) ∧
  (p = .borrow → f.c = decide (a.toNat < b.toNat)) ∧
  f.n = decide ((a - b).toInt < 0) ∧
  f.z = decide (a = b) ∧
  f.ov = decide (a.toInt - b.toInt < -128 ∨ 127 < a.toInt - b.toInt)

/-! ### Conditional branches (45_cond_branch.md) -/

/-- The conditional branch that verifies condition `k`. -/
def branchInstr (k : Cond) (unused : BitVec 2) (a : Addr) : Instr :=
  match k with
  | .EQ => .beq unused a
  | .NEQ => .bneq unused a
  | .LT => .blt unused a
  | .LET => .blet unused a
  | .GT => .bgt unused a
  | .GET => .bget unused a

/-- The opcodes 8 to 13 (30_encoding.md R68). -/
def branchOpcode : Cond → BitVec 5
  | .EQ => 0b01000#5
  | .NEQ => 0b01001#5
  | .LT => 0b01010#5
  | .LET => 0b01011#5
  | .GT => 0b01100#5
  | .GET => 0b01101#5

/-- The equations of R151. -/
def signedEquation : Cond → Flags → Bool
  | .EQ, f => f.z == true
  | .NEQ, f => f.z == false
  | .LT, f => f.n != f.ov
  | .LET, f => f.z == true || f.n != f.ov
  | .GT, f => f.z == false && f.n == f.ov
  | .GET, f => f.n == f.ov

/-- The equations of R152, against `SUB_CARRY = carry`. -/
def unsignedEquation : Cond → Flags → Bool
  | .EQ, f => f.z == true
  | .NEQ, f => f.z == false
  | .LT, f => f.c == false
  | .LET, f => f.z == true || f.c == false
  | .GT, f => f.z == false && f.c == true
  | .GET, f => f.c == true

/-- The right-hand column of R151. -/
def signedOrder : Cond → Word → Word → Bool
  | .EQ, a, b => decide (a = b)
  | .NEQ, a, b => decide (a ≠ b)
  | .LT, a, b => decide (a.toInt < b.toInt)
  | .LET, a, b => decide (a.toInt ≤ b.toInt)
  | .GT, a, b => decide (b.toInt < a.toInt)
  | .GET, a, b => decide (b.toInt ≤ a.toInt)

/-- The right-hand column of R152. -/
def unsignedOrder : Cond → Word → Word → Bool
  | .EQ, a, b => decide (a = b)
  | .NEQ, a, b => decide (a ≠ b)
  | .LT, a, b => decide (a.toNat < b.toNat)
  | .LET, a, b => decide (a.toNat ≤ b.toNat)
  | .GT, a, b => decide (b.toNat < a.toNat)
  | .GET, a, b => decide (b.toNat ≤ a.toNat)

/-- The branch on `k` to `a` answers a next state: the pc is `a` where `holds`, the next address otherwise, and all else is kept
(R150). -/
def BranchesOn (k : Cond) (unused : BitVec 2) (a : Addr) (s : State) (holds : Bool) : Prop :=
  ∃ t, exec (branchInstr k unused a) s = .next t ∧
    (holds = true → t.pc = a) ∧ (holds = false → PcAdvanced s t) ∧
    RegsKept s t ∧ t.flags = s.flags ∧ DataKept s t ∧ ProgramKept s t

end Sys2Proof.Machine
end

