-- ==== Sys2Proof/Certificates/Slice0/Obligations.lean ====
section
/-! DEFINITION. The statements for the provers. Each docstring names the rules of spec/ it formalises; what rests on a choice of the
model names its log entry. -/

open Sys2Proof Sys2Proof.Machine

/-! ### Reset, launch, fetch -/

/-- The state after reset: the pc is 0 (R200, R201); the register and flag values and the parameters are the model's choices
(logs 2, 3, 7), no memory cell is defined. -/
def Obligations.ResetStateIsAsLogged : Prop :=
  State.reset.pc = 0 ∧ (∀ r, State.reset.reg r = 0) ∧
  State.reset.flags = { c := false, n := false, z := false, ov := false } ∧
  (∀ a, State.reset.dataCell a = none) ∧ (∀ a, State.reset.instrWord a = none) ∧
  State.reset.params =
    { cmpMode := .signed, arithWritesFlags := true, subCarry := .carry, strictUnused := false }

/-- R193, R200: the launch fills exactly the cells its images define (the last entry of an image for an address counts), in a program
space and a data space apart, and starts at the entry point it is given. -/
def Obligations.LaunchDefinesExactlyItsImages : Prop :=
  ∀ (p : Params) (pc0 : Addr) (regs : Regs) (flags : Flags)
    (program : List (Addr × InstrWord)) (data : List (Addr × Word)),
    let s := State.launch p pc0 regs flags program data
    s.pc = pc0 ∧ s.Inv ∧
    (∀ a w before after, program = before ++ (a, w) :: after → (∀ e ∈ after, e.1 ≠ a) → s.instrWord a = some w) ∧
    (∀ a, (∀ e ∈ program, e.1 ≠ a) → s.instrWord a = none) ∧
    (∀ a v before after, data = before ++ (a, v) :: after → (∀ e ∈ after, e.1 ≠ a) → s.dataCell a = some v) ∧
    (∀ a, (∀ e ∈ data, e.1 ≠ a) → s.dataCell a = none)

/-- R201: after a launch at the default `RESET_PC` = 0 the first step executes the word at program address 0. -/
def Obligations.FirstInstructionIsAtAddressZero : Prop :=
  ∀ (p : Params) (regs : Regs) (flags : Flags) (program : List (Addr × InstrWord)) (data : List (Addr × Word))
    (w : InstrWord) (i : Instr),
    (State.launch p resetPc regs flags program data).instrWord 0 = some w →
    decode p.strictUnused w = .instr i →
    step (State.launch p resetPc regs flags program data)
      = exec i (State.launch p resetPc regs flags program data)

/-- R7, R43, R184: when the word at the pc decodes to an instruction, a step is the execution of it, with nothing around it. -/
def Obligations.StepRunsTheDecodedInstruction : Prop :=
  ∀ (s : State) (w : InstrWord) (i : Instr),
    s.instrWord s.pc = some w → decode s.params.strictUnused w = .instr i → step s = exec i s

/-- R181, R182, R200: a step faults exactly when the pc names an undefined program word, is refused exactly when the fetched word
decodes to nothing, and otherwise answers a next state. The fault is the model's choice among what R200 allows (log 5). -/
def Obligations.StepStopsOnlyOnUndefinedOrInvalidWords : Prop :=
  ∀ s : State,
    ((∃ f, step s = .fault f) ↔ s.instrWord s.pc = none) ∧
    (∀ w, s.instrWord s.pc = some w →
      ((∃ r, step s = .refused r) ↔ ∃ why, decode s.params.strictUnused w = .invalid why) ∧
      ((∃ t, step s = .next t) ↔ ∃ i, decode s.params.strictUnused w = .instr i))

/-! ### Encoding -/

/-- Words of 95_test_vectors.md section 2.1, at least one for each family, decode as the table there says. -/
def Obligations.FamilyWordsDecode : Prop :=
  decode false 0b000010100000101#15 = .instr (.li .r1 5) ∧
  decode false 0b000101100100000#15 = .instr (.lwi .r3 0x20) ∧
  decode false 0b000110011111111#15 = .instr (.swi .r0 0xFF) ∧
  decode false 0b000000110110000#15 = .instr (.add .r1 .r2 .r3) ∧
  decode false 0b001000101111111#15 = .instr (.addi .r1 .r1 0x3F) ∧
  decode false 0b000001000010101#15 = .instr (.nand .r2 .r0 .r1) ∧
  decode false 0b001100000000111#15 = .instr (.b 0 0x07) ∧
  decode false 0b000001101101000#15 = .instr (.cp 3 .r1 .r2) ∧
  decode false 0b001110010000000#15 = .instr (.cpi .r0 0x80) ∧
  decode false 0b011011100000110#15 = .instr (.bget 3 0x06) ∧
  decode false 0b011100000000000#15 = .instr (.nop 0) ∧
  decode false 0b011110000000000#15 = .invalid .unassignedOpcode

/-- R71: decoding the encoding of a well-formed instruction gives it back, every operand at every value, the unused bits
among them (that `Instr` keeps those is the model's choice: log 10). -/
def Obligations.DecodeInvertsEncode : Prop :=
  ∀ (strict : Bool) (i : Instr), i.wellFormed strict = true → decode strict (encode i) = .instr i

/-- R71, R75: each valid word spells exactly one instruction, and is its encoding. For a word with a non-zero unused bit this is the
model's choice and not the spec's: `Instr` keeps the unused bits (log 10, DESIGN CHOICE), where R72's assembler writes them as zeros, so
that the spec's encoding of the instruction 0x1B07 spells is 0x1807. -/
def Obligations.EncodeInvertsDecode : Prop :=
  ∀ (strict : Bool) (w : InstrWord) (i : Instr), decode strict w = .instr i → encode i = w

/-- R73, R181: the invalid words are exactly those with OPCODE 15..31 and those with OPCODE 0 and FUNCTION 9..15, and the machine has
no step for them; a state that fetched one is not final. -/
def Obligations.UnassignedWordsAreRefused : Prop :=
  (∀ w : InstrWord, (∃ why, decode false w = .invalid why) ↔ Unassigned w) ∧
  (∀ (s : State) (w : InstrWord), s.instrWord s.pc = some w → Unassigned w →
    s.isFinal = false ∧ ∃ why, step s = .refused (.illegalWord why))

/-- R72: every value of the unused bits of CP, B, the conditional branches and NOP encodes the same instruction with the same effect;
with `STRICT_UNUSED` a word whose unused bits are not all zero is refused. -/
def Obligations.UnusedBitsAreIgnoredUnlessStrict : Prop :=
  (∀ (u : BitVec 2) (rs1 rs2 : Reg),
    DecodesUnused u (0b00000#5 ++ u ++ rs1.toField ++ rs2.toField ++ 0b1000#4) (.cp u rs1 rs2) ∧
    ∀ v s, exec (.cp u rs1 rs2) s = exec (.cp v rs1 rs2) s) ∧
  (∀ (u : BitVec 2) (a : Addr),
    DecodesUnused u (0b00110#5 ++ u ++ a) (.b u a) ∧ ∀ v s, exec (.b u a) s = exec (.b v a) s) ∧
  (∀ (k : Cond) (u : BitVec 2) (a : Addr),
    DecodesUnused u (branchOpcode k ++ u ++ a) (branchInstr k u a) ∧
    ∀ v s, exec (branchInstr k u a) s = exec (branchInstr k v a) s) ∧
  (∀ u : BitVec 10,
    DecodesUnused u (0b01110#5 ++ u) (.nop u) ∧ ∀ v s, exec (.nop u) s = exec (.nop v) s) ∧
  (∀ (s : State) (w : InstrWord), s.params.strictUnused = true → s.instrWord s.pc = some w →
    decode true w = .invalid .unusedBitsSet → step s = .refused (.illegalWord .unusedBitsSet))

/-! ### Load and store -/

/-- R100: LI. -/
def Obligations.LiLoadsItsConstant : Prop :=
  ∀ (rd : Reg) (imm : BitVec 8) (s : State),
    Decodes (0b00001#5 ++ rd.toField ++ imm) (.li rd imm) ∧
    ∃ t, exec (.li rd imm) s = .next t ∧
      t.reg rd = imm ∧ RegsKeptBut rd s t ∧ t.flags = s.flags ∧ PcAdvanced s t ∧ DataKept s t ∧ ProgramKept s t

/-- R101: LWI completes at every address; where the cell is defined the register receives it, and no rule fixes the value of a cell
never written. -/
def Obligations.LwiLoadsTheAddressedWord : Prop :=
  ∀ (rd : Reg) (a : Addr) (s : State),
    Decodes (0b00010#5 ++ rd.toField ++ a) (.lwi rd a) ∧
    ∃ t, exec (.lwi rd a) s = .next t ∧
      (∀ v, s.dataCell a = some v → t.reg rd = v) ∧
      RegsKeptBut rd s t ∧ t.flags = s.flags ∧ PcAdvanced s t ∧ DataKept s t ∧ ProgramKept s t

/-- R102: SWI stores the whole register in the cell `lit8` and changes no other cell. -/
def Obligations.SwiStoresTheRegister : Prop :=
  ∀ (rd : Reg) (a : Addr) (s : State),
    Decodes (0b00011#5 ++ rd.toField ++ a) (.swi rd a) ∧
    ∃ t, exec (.swi rd a) s = .next t ∧
      t.dataCell a = some (s.reg rd) ∧
      (∀ b : Nat, b ≠ a.toNat → Memory.read? t.dmem b = Memory.read? s.dmem b) ∧
      RegsKept s t ∧ t.flags = s.flags ∧ PcAdvanced s t ∧ ProgramKept s t

/-- R52: an LWI returns the value of the most recent SWI to its address in program order, or the launch value if there was none. -/
def Obligations.LoadReturnsTheLatestStore : Prop :=
  ∀ (rs rd : Reg) (a : Addr) (is : List Instr) (s t u : State),
    (∀ i ∈ is, storesTo i ≠ some a) →
    (exec (.swi rs a) s = .next t → execAll is t = .next u →
      ∃ v, exec (.lwi rd a) u = .next v ∧ v.reg rd = s.reg rs) ∧
    (∀ x, s.dataCell a = some x → execAll is s = .next u →
      ∃ v, exec (.lwi rd a) u = .next v ∧ v.reg rd = x)

/-- R48: two loads of one cell with no store to it between them give the same value, a cell never written among them. That the free
value is one for each address is the model's form of it (log 4). -/
def Obligations.RepeatedLoadsAgree : Prop :=
  ∀ (r q : Reg) (a : Addr) (is : List Instr) (s t u : State),
    (∀ i ∈ is, storesTo i ≠ some a) →
    exec (.lwi r a) s = .next t → execAll is t = .next u →
    ∃ v, exec (.lwi q a) u = .next v ∧ v.reg q = t.reg r

/-! ### Arithmetic -/

/-- R30: the adder's outputs in arithmetic terms, for an addition and for a subtraction, the flags of a logic result, and that under
`CMP_MODE = signed` no branch reads C, so that its polarity cannot be observed. R30 gives C after a subtraction for
`SUB_CARRY = carry`; that C is inverted for `borrow` is the model's reading of 92_eei_decisions.md D6 (log 8, DEDUCED). -/
def Obligations.AdderFlagsMeanWhatR30Says : Prop :=
  ∀ a b : Word,
    ((addFlags a b false).1 = a + b ∧ SumFlags a b (addFlags a b false).2) ∧
    ((addFlags a (~~~b) true).1 = a - b ∧ DifferenceFlags .carry a b (addFlags a (~~~b) true).2) ∧
    (∀ p, (subFlags p a b).1 = a - b ∧ DifferenceFlags p a b (subFlags p a b).2) ∧
    (∀ old r, (logicFlags old r).n = decide (r.toInt < 0) ∧ (logicFlags old r).z = decide (r = 0) ∧
      (logicFlags old r).c = old.c ∧ (logicFlags old r).ov = old.ov) ∧
    (∀ (k : Cond) (u : BitVec 2) (t : Addr) (s x y : State) (c : Bool), s.params.cmpMode = .signed →
      exec (branchInstr k u t) s = .next x →
      exec (branchInstr k u t) { s with flags := { s.flags with c := c } } = .next y → y.pc = x.pc)

/-- R111: ADD. -/
def Obligations.AddWritesTheSumAndItsFlags : Prop :=
  ∀ (rd rs1 rs2 : Reg) (s : State),
    Decodes (0b00000#5 ++ rd.toField ++ rs1.toField ++ rs2.toField ++ 0b0000#4) (.add rd rs1 rs2) ∧
    ∃ t, exec (.add rd rs1 rs2) s = .next t ∧
      (t.reg rd).toNat = ((s.reg rs1).toNat + (s.reg rs2).toNat) % 256 ∧ RegsKeptBut rd s t ∧
      (s.params.arithWritesFlags = true → SumFlags (s.reg rs1) (s.reg rs2) t.flags) ∧
      (s.params.arithWritesFlags = false → t.flags = s.flags) ∧
      PcAdvanced s t ∧ DataKept s t ∧ ProgramKept s t

/-- R112: SUB, first source minus second source. That C is inverted under `SUB_CARRY = borrow` is the model's reading of
92_eei_decisions.md D6 (log 8, DEDUCED), not the rule's. -/
def Obligations.SubWritesTheDifferenceAndItsFlags : Prop :=
  ∀ (rd rs1 rs2 : Reg) (s : State),
    Decodes (0b00000#5 ++ rd.toField ++ rs1.toField ++ rs2.toField ++ 0b0001#4) (.sub rd rs1 rs2) ∧
    ∃ t, exec (.sub rd rs1 rs2) s = .next t ∧
      t.reg rd = s.reg rs1 - s.reg rs2 ∧ RegsKeptBut rd s t ∧
      (s.params.arithWritesFlags = true →
        DifferenceFlags s.params.subCarry (s.reg rs1) (s.reg rs2) t.flags) ∧
      (s.params.arithWritesFlags = false → t.flags = s.flags) ∧
      PcAdvanced s t ∧ DataKept s t ∧ ProgramKept s t

/-- R113: ADDI with the constant -32..31, and its agreement with SUBI of the opposite constant: the same result and flags for `k` in
1..31, and at 0 a C of 0 against SUBI's 1. -/
def Obligations.AddiAddsItsSignedConstant : Prop :=
  (∀ (rd rs1 : Reg) (imm : BitVec 6) (s : State),
    Decodes (0b00100#5 ++ rd.toField ++ rs1.toField ++ imm) (.addi rd rs1 imm) ∧
    ∃ t, exec (.addi rd rs1 imm) s = .next t ∧
      t.reg rd = s.reg rs1 + BitVec.ofInt 8 imm.toInt ∧ RegsKeptBut rd s t ∧
      (s.params.arithWritesFlags = true → SumFlags (s.reg rs1) (BitVec.ofInt 8 imm.toInt) t.flags) ∧
      (s.params.arithWritesFlags = false → t.flags = s.flags) ∧
      PcAdvanced s t ∧ DataKept s t ∧ ProgramKept s t) ∧
  (∀ (rd rs1 : Reg) (s : State), s.params.subCarry = .carry →
    (∀ k : BitVec 6, 1 ≤ k.toNat → k.toNat ≤ 31 →
      exec (.addi rd rs1 (-k)) s = exec (.subi rd rs1 k) s) ∧
    (s.params.arithWritesFlags = true → ∀ t u, exec (.addi rd rs1 0) s = .next t →
      exec (.subi rd rs1 0) s = .next u → t.flags.c = false ∧ u.flags.c = true))

/-- R114: SUBI with the constant -32..31. That C is inverted under `SUB_CARRY = borrow` is the model's reading of
92_eei_decisions.md D6 (log 8, DEDUCED), not the rule's. -/
def Obligations.SubiSubtractsItsSignedConstant : Prop :=
  ∀ (rd rs1 : Reg) (imm : BitVec 6) (s : State),
    Decodes (0b00101#5 ++ rd.toField ++ rs1.toField ++ imm) (.subi rd rs1 imm) ∧
    ∃ t, exec (.subi rd rs1 imm) s = .next t ∧
      t.reg rd = s.reg rs1 - BitVec.ofInt 8 imm.toInt ∧ RegsKeptBut rd s t ∧
      (s.params.arithWritesFlags = true →
        DifferenceFlags s.params.subCarry (s.reg rs1) (BitVec.ofInt 8 imm.toInt) t.flags) ∧
      (s.params.arithWritesFlags = false → t.flags = s.flags) ∧
      PcAdvanced s t ∧ DataKept s t ∧ ProgramKept s t

/-- R116: with `ARITH_WRITES_FLAGS = false` the arithmetic instructions keep `Reg_edo`; the register results, the pc and the memories
are those of the other setting. -/
def Obligations.FlagSettingLeavesArithmeticResultsAlone : Prop :=
  ∀ (i : Instr) (s : State), flagsColumn i = .arithmetic →
    ∃ t u, exec i { s with params := { s.params with arithWritesFlags := true } } = .next t ∧
      exec i { s with params := { s.params with arithWritesFlags := false } } = .next u ∧
      RegsKept t u ∧ u.pc = t.pc ∧ DataKept t u ∧
      (∀ a : Nat, Memory.read? u.imem a = Memory.read? t.imem a) ∧ u.flags = s.flags

/-! ### Logic -/

/-- R120 to R126: the six logic instructions, bit by bit; N and Z of the result when `ARITH_WRITES_FLAGS`, C and OV kept. -/
def Obligations.LogicInstructionsWorkBitByBit : Prop :=
  ∀ (rd rs1 rs2 : Reg) (s : State) (i : Instr) (fn : BitVec 4) (f : Bool → Bool → Bool),
    (i, fn, f) ∈
      [(.and rd rs1 rs2, 2, fun x y => x && y), (.or rd rs1 rs2, 3, fun x y => x || y),
       (.xor rd rs1 rs2, 4, fun x y => x != y), (.nand rd rs1 rs2, 5, fun x y => !(x && y)),
       (.nor rd rs1 rs2, 6, fun x y => !(x || y)), (.xnor rd rs1 rs2, 7, fun x y => x == y)] →
    Decodes (0b00000#5 ++ rd.toField ++ rs1.toField ++ rs2.toField ++ fn) i ∧
    ∃ t, exec i s = .next t ∧
      (∀ k, k < 8 → (t.reg rd).getLsbD k = f ((s.reg rs1).getLsbD k) ((s.reg rs2).getLsbD k)) ∧
      RegsKeptBut rd s t ∧
      (s.params.arithWritesFlags = true →
        t.flags.n = (t.reg rd).getLsbD 7 ∧ t.flags.z = decide (t.reg rd = 0) ∧
        t.flags.c = s.flags.c ∧ t.flags.ov = s.flags.ov) ∧
      (s.params.arithWritesFlags = false → t.flags = s.flags) ∧
      PcAdvanced s t ∧ DataKept s t ∧ ProgramKept s t

/-! ### Jump and NOP -/

/-- R130: B jumps to its absolute target and changes nothing else; a B to its own address changes nothing at all. -/
def Obligations.BJumpsToItsTarget : Prop :=
  ∀ (u : BitVec 2) (a : Addr) (s : State),
    DecodesUnused u (0b00110#5 ++ u ++ a) (.b u a) ∧
    (∃ t, exec (.b u a) s = .next t ∧
      t.pc = a ∧ RegsKept s t ∧ t.flags = s.flags ∧ DataKept s t ∧ ProgramKept s t) ∧
    (a = s.pc → exec (.b u a) s = .next s)

/-- R170: NOP advances the pc and changes nothing else. -/
def Obligations.NopOnlyAdvancesThePc : Prop :=
  ∀ (u : BitVec 10) (s : State),
    DecodesUnused u (0b01110#5 ++ u) (.nop u) ∧
    ∃ t, exec (.nop u) s = .next t ∧
      PcAdvanced s t ∧ RegsKept s t ∧ t.flags = s.flags ∧ DataKept s t ∧ ProgramKept s t

/-! ### Comparison -/

/-- R141: CP writes the flags of the first register minus the second, whatever `ARITH_WRITES_FLAGS` is, and no register; they are the
flags SUB gives. That C is inverted under `SUB_CARRY = borrow` is the model's reading of
92_eei_decisions.md D6 (log 8, DEDUCED), not the rule's. -/
def Obligations.CpWritesTheFlagsOfTheDifference : Prop :=
  ∀ (u : BitVec 2) (rs1 rs2 : Reg) (s : State),
    DecodesUnused u (0b00000#5 ++ u ++ rs1.toField ++ rs2.toField ++ 0b1000#4) (.cp u rs1 rs2) ∧
    ∃ t, exec (.cp u rs1 rs2) s = .next t ∧
      DifferenceFlags s.params.subCarry (s.reg rs1) (s.reg rs2) t.flags ∧
      RegsKept s t ∧ PcAdvanced s t ∧ DataKept s t ∧ ProgramKept s t ∧
      (∀ rd v, s.params.arithWritesFlags = true → exec (.sub rd rs1 rs2) s = .next v → v.flags = t.flags)

/-- R142: CPI writes the flags of the register minus the constant, and no register. That C is inverted under `SUB_CARRY = borrow` is the model's reading of
92_eei_decisions.md D6 (log 8, DEDUCED), not the rule's. -/
def Obligations.CpiWritesTheFlagsOfTheDifference : Prop :=
  ∀ (rd : Reg) (imm : BitVec 8) (s : State),
    Decodes (0b00111#5 ++ rd.toField ++ imm) (.cpi rd imm) ∧
    ∃ t, exec (.cpi rd imm) s = .next t ∧
      DifferenceFlags s.params.subCarry (s.reg rd) imm t.flags ∧
      RegsKept s t ∧ PcAdvanced s t ∧ DataKept s t ∧ ProgramKept s t

/-! ### Conditional branches -/

/-- R150, R154 to R159: the encodings of the six conditional branches, and their effect by the equations of the mode in force
(unsigned: against `SUB_CARRY = carry`); BEQ and BNEQ follow Z in every mode. -/
def Obligations.ConditionalBranchesFollowTheStoredFlags : Prop :=
  ∀ (k : Cond) (u : BitVec 2) (a : Addr) (s : State),
    DecodesUnused u (branchOpcode k ++ u ++ a) (branchInstr k u a) ∧
    (s.params.cmpMode = .signed → BranchesOn k u a s (signedEquation k s.flags)) ∧
    (s.params.cmpMode = .unsigned → s.params.subCarry = .carry →
      BranchesOn k u a s (unsignedEquation k s.flags)) ∧
    (k = .EQ → BranchesOn k u a s (s.flags.z == true)) ∧
    (k = .NEQ → BranchesOn k u a s (s.flags.z == false))

/-- The unsigned conditions under `SUB_CARRY = borrow`: the equations of R152 with C inverted, as 92_eei_decisions.md D6 asks of such
a model (log 8). -/
def Obligations.BorrowPolarityInvertsCInUnsignedConditions : Prop :=
  ∀ (k : Cond) (u : BitVec 2) (a : Addr) (s : State),
    s.params.cmpMode = .unsigned → s.params.subCarry = .borrow →
    BranchesOn k u a s (unsignedEquation k { s.flags with c := !s.flags.c })

/-- R151: under `CMP_MODE = signed` the six branches follow the signed equations on the flags, and after CP or CPI the signed order of
the two operands, for every pair of them. -/
def Obligations.SignedBranchesDecideTheSignedOrder : Prop :=
  ∀ (k : Cond) (v : BitVec 2) (a : Addr) (s : State), s.params.cmpMode = .signed →
    BranchesOn k v a s (signedEquation k s.flags) ∧
    (∀ u rs1 rs2 t, exec (.cp u rs1 rs2) s = .next t →
      BranchesOn k v a t (signedOrder k (s.reg rs1) (s.reg rs2))) ∧
    (∀ rd imm t, exec (.cpi rd imm) s = .next t → BranchesOn k v a t (signedOrder k (s.reg rd) imm))

/-- R152: under `CMP_MODE = unsigned` (and `SUB_CARRY = carry`) the same with the unsigned equations and order; the two orders agree
on operands with equal top bits and are opposite for LT, LET, GT, GET on the others. -/
def Obligations.UnsignedBranchesDecideTheUnsignedOrder : Prop :=
  (∀ (k : Cond) (v : BitVec 2) (a : Addr) (s : State),
    s.params.cmpMode = .unsigned → s.params.subCarry = .carry →
    BranchesOn k v a s (unsignedEquation k s.flags) ∧
    (∀ u rs1 rs2 t, exec (.cp u rs1 rs2) s = .next t →
      BranchesOn k v a t (unsignedOrder k (s.reg rs1) (s.reg rs2))) ∧
    (∀ rd imm t, exec (.cpi rd imm) s = .next t → BranchesOn k v a t (unsignedOrder k (s.reg rd) imm))) ∧
  (∀ (k : Cond) (x y : Word),
    (x.getLsbD 7 = y.getLsbD 7 → signedOrder k x y = unsignedOrder k x y) ∧
    (x.getLsbD 7 ≠ y.getLsbD 7 → k ≠ .EQ → k ≠ .NEQ → signedOrder k x y ≠ unsignedOrder k x y))

/-- D6 of 92_eei_decisions.md: the polarity of C does not change what a branch after a comparison does: under `SUB_CARRY = borrow` the
unsigned branches still decide the unsigned order (log 8). -/
def Obligations.BorrowPolarityKeepsTheUnsignedOrder : Prop :=
  ∀ (k : Cond) (v : BitVec 2) (a : Addr) (s : State),
    s.params.cmpMode = .unsigned → s.params.subCarry = .borrow →
    (∀ u rs1 rs2 t, exec (.cp u rs1 rs2) s = .next t →
      BranchesOn k v a t (unsignedOrder k (s.reg rs1) (s.reg rs2))) ∧
    (∀ rd imm t, exec (.cpi rd imm) s = .next t → BranchesOn k v a t (unsignedOrder k (s.reg rd) imm))

/-- R153, R127: what the branches decide after ADD, ADDI, SUB, SUBI and a logic instruction, when those write flags: after an addition,
EQ is "the sum is zero", signed LT "the exact signed sum is negative", unsigned LT (C carry) "no carry"; after a subtraction the six
conditions compare minuend and subtrahend as after a comparison; after a logic instruction EQ is "the result is zero". The unsigned
conditions after a subtraction hold under `SUB_CARRY = borrow` too, by the model's reading of 92_eei_decisions.md D6 (log 8, DEDUCED). -/
def Obligations.BranchesAfterArithmeticAndLogic : Prop :=
  ∀ (s t : State) (rd rs1 rs2 : Reg) (imm : BitVec 6) (v : BitVec 2) (a : Addr), s.params.arithWritesFlags = true →
    let afterSum (x y : Word) : Prop :=
      BranchesOn .EQ v a t (decide (x + y = 0)) ∧
      (s.params.cmpMode = .signed → BranchesOn .LT v a t (decide (x.toInt + y.toInt < 0))) ∧
      (s.params.cmpMode = .unsigned → s.params.subCarry = .carry →
        BranchesOn .LT v a t (decide (x.toNat + y.toNat < 256)))
    let afterDifference (x y : Word) : Prop := ∀ k,
      (s.params.cmpMode = .signed → BranchesOn k v a t (signedOrder k x y)) ∧
      (s.params.cmpMode = .unsigned → BranchesOn k v a t (unsignedOrder k x y))
    (exec (.add rd rs1 rs2) s = .next t → afterSum (s.reg rs1) (s.reg rs2)) ∧
    (exec (.addi rd rs1 imm) s = .next t → afterSum (s.reg rs1) (BitVec.ofInt 8 imm.toInt)) ∧
    (exec (.sub rd rs1 rs2) s = .next t → afterDifference (s.reg rs1) (s.reg rs2)) ∧
    (exec (.subi rd rs1 imm) s = .next t → afterDifference (s.reg rs1) (BitVec.ofInt 8 imm.toInt)) ∧
    (∀ i, flagsColumn i = .logic → destination i = some rd → exec i s = .next t →
      BranchesOn .EQ v a t (decide (t.reg rd = 0)) ∧ BranchesOn .NEQ v a t (decide (t.reg rd ≠ 0)))

/-- R160: on any flags and in either mode BEQ and BNEQ, BLT and BGET, BLET and BGT are complements, LET is EQ or LT, GT is NEQ and GET;
after a comparison (R140: CP and CPI) exactly one of LT, EQ, GT holds; on other flags EQ and LT can hold together; and after a
comparison of two values with equal top bits the mode makes no difference. R160 derives these laws from R151 and R152, and R152 is
written against `SUB_CARRY = carry`; the statement ranges over `borrow` too. There, the clauses after CP and CPI (exactly one of LT, EQ,
GT in unsigned mode; the mode makes no difference) and the unsigned equations of the first clause are the model's reading of
92_eei_decisions.md D6, C inverted after the comparison and in the conditions (log 8, DEDUCED), not the rule's. `taken` says that the
branch goes to its target, whichever target it names. -/
def Obligations.ConditionLawsHoldOnAnyFlags : Prop :=
  let taken (k : Cond) (s : State) : Prop :=
    ∀ a t, exec (branchInstr k 0 a) s = .next t → t.pc = a
  let exactlyOne (t : State) : Prop :=
    (taken .LT t ∨ taken .EQ t ∨ taken .GT t) ∧ ¬(taken .LT t ∧ taken .EQ t) ∧
    ¬(taken .LT t ∧ taken .GT t) ∧ ¬(taken .EQ t ∧ taken .GT t)
  let modeMakesNoDifference (t : State) : Prop :=
    ∀ m k, taken k t ↔ taken k { t with params := { t.params with cmpMode := m } }
  (∀ s, (taken .EQ s ↔ ¬taken .NEQ s) ∧ (taken .LT s ↔ ¬taken .GET s) ∧ (taken .LET s ↔ ¬taken .GT s) ∧
    (taken .LET s ↔ taken .EQ s ∨ taken .LT s) ∧ (taken .GT s ↔ taken .NEQ s ∧ taken .GET s)) ∧
  (∀ m : CmpMode, ∃ s, s.params.cmpMode = m ∧ taken .EQ s ∧ taken .LT s) ∧
  (∀ s t u rs1 rs2, exec (.cp u rs1 rs2) s = .next t →
    exactlyOne t ∧ ((s.reg rs1).getLsbD 7 = (s.reg rs2).getLsbD 7 → modeMakesNoDifference t)) ∧
  (∀ s t rd imm, exec (.cpi rd imm) s = .next t →
    exactlyOne t ∧ ((s.reg rd).getLsbD 7 = imm.getLsbD 7 → modeMakesNoDifference t))

/-! ### The whole machine -/

/-- R180: none of the 23 instructions can fault or be refused: each answers a next state in every state. -/
def Obligations.EveryInstructionAnswersANextState : Prop :=
  ∀ (i : Instr) (s : State), ∃ t, exec i s = .next t

/-- R27: an instruction that does not branch ends with the pc advanced modulo 256; a B, or a conditional branch that is taken, with the
target; a conditional branch that is not taken with the pc advanced. -/
def Obligations.SequencingIsPcPlusOneOrTheTarget : Prop :=
  ∀ (i : Instr) (s t : State), exec i s = .next t →
    ((∀ u a, i ≠ .b u a) → (∀ k u a, i ≠ branchInstr k u a) → PcAdvanced s t) ∧
    (∀ u a, i = .b u a → t.pc = a) ∧
    (∀ k u a, i = branchInstr k u a →
      (condition s.params k s.flags = true → t.pc = a) ∧ (condition s.params k s.flags = false → PcAdvanced s t))

/-- R28: the pc is read by no instruction: what an instruction does to the registers, flags and memories, and where a taken branch
goes, is the same at every pc. -/
def Obligations.NoInstructionReadsThePc : Prop :=
  ∀ (i : Instr) (s t : State) (p : Addr), exec i s = .next t →
    ∃ u, exec i { s with pc := p } = .next u ∧
      RegsKept t u ∧ u.flags = t.flags ∧ DataKept t u ∧ ProgramKept t u ∧
      (u.pc = t.pc ∨ (PcAdvanced s t ∧ u.pc.toNat = (p.toNat + 1) % 256)) ∧
      ((∀ v a, i ≠ .b v a) → (∀ k v a, i ≠ branchInstr k v a) → u.pc.toNat = (p.toNat + 1) % 256)

/-- R31: which flags each instruction writes and which it keeps, by Tabla 1's last column; a written flag does not depend on the
flags before. -/
def Obligations.FlagsAreWrittenAsTheColumnSays : Prop :=
  ∀ (i : Instr) (s t : State), exec i s = .next t →
    (flagsColumn i = .ninguna → t.flags = s.flags) ∧
    (flagsColumn i = .logic → t.flags.c = s.flags.c ∧ t.flags.ov = s.flags.ov) ∧
    (flagsColumn i = .logic ∨ flagsColumn i = .arithmetic → s.params.arithWritesFlags = false →
      t.flags = s.flags) ∧
    (∀ f u, exec i { s with flags := f } = .next u →
      (flagsColumn i = .logic → s.params.arithWritesFlags = true →
        u.flags.n = t.flags.n ∧ u.flags.z = t.flags.z) ∧
      (flagsColumn i = .arithmetic → s.params.arithWritesFlags = true → u.flags = t.flags) ∧
      (flagsColumn i = .comparison → u.flags = t.flags))

/-- R32: only the six conditional branches read `Reg_edo`: with other flags every other instruction leaves the same registers, pc and
memories. -/
def Obligations.OnlyConditionalBranchesReadTheFlags : Prop :=
  ∀ (i : Instr) (s t : State) (f : Flags), (∀ k u a, i ≠ branchInstr k u a) → exec i s = .next t →
    ∃ u, exec i { s with flags := f } = .next u ∧
      RegsKept t u ∧ u.pc = t.pc ∧ DataKept t u ∧ ProgramKept t u

/-- R25: an instruction writes no register but its destination, and reads none but its sources: another value in any other register
changes nothing else. -/
def Obligations.RegisterFieldsHaveTheirRoles : Prop :=
  ∀ (i : Instr) (s t : State), exec i s = .next t →
    (∀ r, destination i ≠ some r → t.reg r = s.reg r) ∧
    (∀ r v, r ∉ sources i → ∃ u, exec i (s.setReg r v) = .next u ∧
      (∀ q, (q ≠ r ∨ destination i = some r) → u.reg q = t.reg q) ∧
      u.pc = t.pc ∧ u.flags = t.flags ∧ DataKept t u ∧ ProgramKept t u)

/-- R24: no register is hardwired: each of the four, R0 among them, holds whatever was last written to it through any further
instructions that do not write it. -/
def Obligations.EveryRegisterHoldsWhatWasLastWritten : Prop :=
  ∀ (r : Reg) (v : Word) (is : List Instr) (s : State), (∀ i ∈ is, destination i ≠ some r) →
    ∃ t u, exec (.li r v) s = .next t ∧ execAll is t = .next u ∧ u.reg r = v

/-- R51, R55: nothing changes program memory and nothing but an SWI changes data memory, the cell it names alone; the parameters
never change. -/
def Obligations.OnlySwiChangesMemory : Prop :=
  ∀ (i : Instr) (s t : State), exec i s = .next t →
    ProgramKept s t ∧
    (∀ b : Nat, (∀ a, storesTo i = some a → a.toNat ≠ b) → Memory.read? t.dmem b = Memory.read? s.dmem b)

/-- R192: a state is final exactly when the pc holds the address of a B to that address, and from it every further step leaves the whole
state unchanged, for any number of steps. -/
def Obligations.FinalStateIsAFixedPoint : Prop :=
  ∀ s : State,
    (s.isFinal = true ↔ ∃ w u, s.instrWord s.pc = some w ∧ decode s.params.strictUnused w = .instr (.b u s.pc)) ∧
    (s.isFinal = true → step s = .next s ∧ ∀ n, Host.Core.run Sys2Proof.core n s = .next s)

/-- R41, R43: a step keeps both memories in canonical form, every address in 0..255. -/
def Obligations.StepKeepsTheMemoriesCanonical : Prop :=
  ∀ s t : State, s.Inv → step s = .next t → t.Inv

/-- The state after reset meets the invariant of `StepKeepsTheMemoriesCanonical`. -/
def Obligations.ResetMeetsTheMemoryInvariant : Prop :=
  State.reset.Inv
end

