-- ==== Sys2Proof/Laws/Decode.lean ====
section
/-! SUPPORT. The fields of the three layouts, read back from the words the encoder builds (30_encoding.md R61 to R64). -/

namespace Sys2Proof

@[simp] theorem Reg.ofField_toField (r : Reg) : Reg.ofField r.toField = r := by
  cases r <;> rfl

@[simp] theorem Reg.toField_ofField (f : BitVec 2) : (Reg.ofField f).toField = f := by
  revert f; decide

section Layouts

variable (op : BitVec 5) (f : BitVec 2) (imm : BitVec 8) (rd rs1 rs2 : Reg) (fn : BitVec 4) (imm6 : BitVec 6)

@[simp] theorem opcodeField_encode8 : opcodeField (encode8 op f imm) = op := by
  ext k hk; simp [opcodeField, encode8]; grind

@[simp] theorem bits98_encode8 : bits98 (encode8 op f imm) = f := by
  ext k hk; simp [bits98, encode8]; grind

@[simp] theorem imm8Field_encode8 : imm8Field (encode8 op f imm) = imm := by
  ext k hk; simp [imm8Field, encode8]; grind

@[simp] theorem rdField_encode8 : rdField (encode8 op rd.toField imm) = rd := by
  rw [rdField, show (encode8 op rd.toField imm).extractLsb' 8 2 = rd.toField from bits98_encode8 ..]
  simp

@[simp] theorem opcodeField_encode6 : opcodeField (encode6 op rd rs1 imm6) = op := by
  ext k hk; simp [opcodeField, encode6]; grind

@[simp] theorem rdField_encode6 : rdField (encode6 op rd rs1 imm6) = rd := by
  rw [rdField, show (encode6 op rd rs1 imm6).extractLsb' 8 2 = rd.toField by
    ext k hk; simp [encode6]; grind]
  simp

@[simp] theorem rs1Field_encode6 : rs1Field (encode6 op rd rs1 imm6) = rs1 := by
  rw [rs1Field, show (encode6 op rd rs1 imm6).extractLsb' 6 2 = rs1.toField by
    ext k hk; simp [encode6]; grind]
  simp

@[simp] theorem imm6Field_encode6 : imm6Field (encode6 op rd rs1 imm6) = imm6 := by
  ext k hk; simp [imm6Field, encode6]; grind

@[simp] theorem opcodeField_encodeR : opcodeField (encodeR f rs1 rs2 fn) = 0b00000#5 := by
  ext k hk; simp [opcodeField, encodeR]; grind

@[simp] theorem functionField_encodeR : functionField (encodeR f rs1 rs2 fn) = fn := by
  ext k hk; simp [functionField, encodeR]; grind

@[simp] theorem bits98_encodeR : bits98 (encodeR f rs1 rs2 fn) = f := by
  ext k hk; simp [bits98, encodeR]; grind

@[simp] theorem rdField_encodeR : rdField (encodeR rd.toField rs1 rs2 fn) = rd := by
  rw [rdField, show (encodeR rd.toField rs1 rs2 fn).extractLsb' 8 2 = rd.toField from bits98_encodeR ..]
  simp

@[simp] theorem rs1Field_encodeR : rs1Field (encodeR f rs1 rs2 fn) = rs1 := by
  rw [rs1Field, show (encodeR f rs1 rs2 fn).extractLsb' 6 2 = rs1.toField by
    ext k hk; simp [encodeR]; grind]
  simp

@[simp] theorem rs2Field_encodeR : rs2Field (encodeR f rs1 rs2 fn) = rs2 := by
  rw [rs2Field, show (encodeR f rs1 rs2 fn).extractLsb' 4 2 = rs2.toField by
    ext k hk; simp [encodeR]; grind]
  simp

@[simp] theorem opcodeField_nop (u : BitVec 10) : opcodeField (0b01110#5 ++ u) = 0b01110#5 := by
  ext k hk; simp [opcodeField]; grind

@[simp] theorem bits90_nop (u : BitVec 10) : bits90 (0b01110#5 ++ u) = u := by
  ext k hk; simp [bits90]; grind

end Layouts

section Fields

variable (w : InstrWord)

@[simp] theorem toField_rdField : (rdField w).toField = bits98 w := by
  simp [rdField, bits98]

/-- A word of layout I8 or J is its three fields. -/
theorem encode8_fields : encode8 (opcodeField w) (bits98 w) (imm8Field w) = w := by
  apply BitVec.eq_of_getLsbD_eq
  intro k hk
  simp only [encode8, opcodeField, bits98, imm8Field, BitVec.getLsbD_append, BitVec.getLsbD_extractLsb']
  interval_cases k <;> simp

/-- A word of layout I6 is its four fields. -/
theorem encode6_fields : encode6 (opcodeField w) (rdField w) (rs1Field w) (imm6Field w) = w := by
  apply BitVec.eq_of_getLsbD_eq
  intro k hk
  simp only [encode6, opcodeField, rdField, rs1Field, Reg.toField_ofField, imm6Field, BitVec.getLsbD_append,
    BitVec.getLsbD_extractLsb']
  interval_cases k <;> simp

/-- A word of layout R is its five fields. -/
theorem encodeR_fields (h : opcodeField w = 0) :
    encodeR (bits98 w) (rs1Field w) (rs2Field w) (functionField w) = w := by
  rw [encodeR, show 0b00000#5 = opcodeField w from h.symm]
  apply BitVec.eq_of_getLsbD_eq
  intro k hk
  simp only [opcodeField, bits98, functionField, rs2Field, rs1Field, Reg.toField_ofField, BitVec.getLsbD_append,
    BitVec.getLsbD_extractLsb']
  interval_cases k <;> simp

/-- A NOP word is its opcode and its unused bits. -/
theorem nop_fields : (opcodeField w ++ bits90 w : InstrWord) = w := by
  apply BitVec.eq_of_getLsbD_eq
  intro k hk
  simp only [opcodeField, bits90, BitVec.getLsbD_append, BitVec.getLsbD_extractLsb']
  interval_cases k <;> simp

end Fields

end Sys2Proof
end

