-- ==== Sys2Proof/Laws/State.lean ====
section
/-! SUPPORT. One lemma for each field of `State` under each update, and the laws of the register file. -/

namespace Sys2Proof.Machine

@[simp] theorem State.setReg_regs (s : State) (i : Reg) (v : Word) : (s.setReg i v).regs = s.regs.set i v := rfl
@[simp] theorem State.setReg_pc (s : State) (i : Reg) (v : Word) : (s.setReg i v).pc = s.pc := rfl
@[simp] theorem State.setReg_flags (s : State) (i : Reg) (v : Word) : (s.setReg i v).flags = s.flags := rfl
@[simp] theorem State.setReg_dmem (s : State) (i : Reg) (v : Word) : (s.setReg i v).dmem = s.dmem := rfl
@[simp] theorem State.setReg_imem (s : State) (i : Reg) (v : Word) : (s.setReg i v).imem = s.imem := rfl
@[simp] theorem State.setReg_params (s : State) (i : Reg) (v : Word) : (s.setReg i v).params = s.params := rfl

@[simp] theorem State.setFlags_regs (s : State) (f : Flags) : (s.setFlags f).regs = s.regs := rfl
@[simp] theorem State.setFlags_pc (s : State) (f : Flags) : (s.setFlags f).pc = s.pc := rfl
@[simp] theorem State.setFlags_flags (s : State) (f : Flags) : (s.setFlags f).flags = f := rfl
@[simp] theorem State.setFlags_dmem (s : State) (f : Flags) : (s.setFlags f).dmem = s.dmem := rfl
@[simp] theorem State.setFlags_imem (s : State) (f : Flags) : (s.setFlags f).imem = s.imem := rfl
@[simp] theorem State.setFlags_params (s : State) (f : Flags) : (s.setFlags f).params = s.params := rfl

@[simp] theorem State.advance_regs (s : State) : s.advance.regs = s.regs := rfl
@[simp] theorem State.advance_pc (s : State) : s.advance.pc = s.pc + 1#8 := rfl
@[simp] theorem State.advance_flags (s : State) : s.advance.flags = s.flags := rfl
@[simp] theorem State.advance_dmem (s : State) : s.advance.dmem = s.dmem := rfl
@[simp] theorem State.advance_imem (s : State) : s.advance.imem = s.imem := rfl
@[simp] theorem State.advance_params (s : State) : s.advance.params = s.params := rfl

@[simp] theorem State.jump_regs (s : State) (t : Addr) : (s.jump t).regs = s.regs := rfl
@[simp] theorem State.jump_pc (s : State) (t : Addr) : (s.jump t).pc = t := rfl
@[simp] theorem State.jump_flags (s : State) (t : Addr) : (s.jump t).flags = s.flags := rfl
@[simp] theorem State.jump_dmem (s : State) (t : Addr) : (s.jump t).dmem = s.dmem := rfl
@[simp] theorem State.jump_imem (s : State) (t : Addr) : (s.jump t).imem = s.imem := rfl
@[simp] theorem State.jump_params (s : State) (t : Addr) : (s.jump t).params = s.params := rfl

@[simp] theorem State.store_regs (s : State) (a : Addr) (v : Word) : (s.store a v).regs = s.regs := rfl
@[simp] theorem State.store_pc (s : State) (a : Addr) (v : Word) : (s.store a v).pc = s.pc := rfl
@[simp] theorem State.store_flags (s : State) (a : Addr) (v : Word) : (s.store a v).flags = s.flags := rfl
@[simp] theorem State.store_dmem (s : State) (a : Addr) (v : Word) : (s.store a v).dmem = Memory.write s.dmem a.toNat v := rfl
@[simp] theorem State.store_imem (s : State) (a : Addr) (v : Word) : (s.store a v).imem = s.imem := rfl
@[simp] theorem State.store_params (s : State) (a : Addr) (v : Word) : (s.store a v).params = s.params := rfl

@[simp] theorem State.placeWord_regs (s : State) (a : Addr) (w : InstrWord) : (s.placeWord a w).regs = s.regs := rfl
@[simp] theorem State.placeWord_pc (s : State) (a : Addr) (w : InstrWord) : (s.placeWord a w).pc = s.pc := rfl
@[simp] theorem State.placeWord_flags (s : State) (a : Addr) (w : InstrWord) : (s.placeWord a w).flags = s.flags := rfl
@[simp] theorem State.placeWord_dmem (s : State) (a : Addr) (w : InstrWord) : (s.placeWord a w).dmem = s.dmem := rfl
@[simp] theorem State.placeWord_imem (s : State) (a : Addr) (w : InstrWord) : (s.placeWord a w).imem = Memory.write s.imem a.toNat w := rfl
@[simp] theorem State.placeWord_params (s : State) (a : Addr) (w : InstrWord) : (s.placeWord a w).params = s.params := rfl

@[simp] theorem Regs.get_set_same (r : Regs) (i : Reg) (v : Word) : (r.set i v).get i = v := by
  cases i <;> rfl

theorem Regs.get_set_other (r : Regs) {i j : Reg} (v : Word) (h : j ≠ i) : (r.set i v).get j = r.get j := by
  cases i <;> cases j <;> first | rfl | exact absurd rfl h

/-- Reading a register after a write: the value at the register written, the old value elsewhere. -/
theorem State.reg_setReg (s : State) (i j : Reg) (v : Word) :
    (s.setReg i v).reg j = if j = i then v else s.reg j := by
  unfold State.reg
  split
  · next h => subst h; simp
  · next h => exact Regs.get_set_other _ v h

@[simp] theorem State.reg_setReg_same (s : State) (i : Reg) (v : Word) : (s.setReg i v).reg i = v := by
  simp [State.reg]

theorem State.reg_setReg_other (s : State) {i j : Reg} (v : Word) (h : j ≠ i) :
    (s.setReg i v).reg j = s.reg j := by
  rw [State.reg_setReg, if_neg h]

@[simp] theorem State.setFlags_reg (s : State) (f : Flags) (j : Reg) : (s.setFlags f).reg j = s.reg j := rfl
@[simp] theorem State.advance_reg (s : State) (j : Reg) : s.advance.reg j = s.reg j := rfl
@[simp] theorem State.jump_reg (s : State) (t : Addr) (j : Reg) : (s.jump t).reg j = s.reg j := rfl
@[simp] theorem State.store_reg (s : State) (a : Addr) (v : Word) (j : Reg) : (s.store a v).reg j = s.reg j := rfl
@[simp] theorem State.placeWord_reg (s : State) (a : Addr) (w : InstrWord) (j : Reg) : (s.placeWord a w).reg j = s.reg j := rfl

end Sys2Proof.Machine
end

