-- ==== Sys2Proof/Laws/Memory.lean ====
section
/-! SUPPORT. The laws of memory: a read after a write, and the canonical form that every memory operation keeps. -/

namespace Sys2Proof.Machine

variable {w : Nat}

@[simp] theorem Memory.read?_nil (a : Nat) : Memory.read? ([] : List (Nat × BitVec w)) a = none := rfl

/-- A read after a write: the value written at that cell, the old content at every other (20_memory.md R42, R48). -/
theorem Memory.read?_write (m : List (Nat × BitVec w)) (a b : Nat) (v : BitVec w) :
    Memory.read? (Memory.write m a v) b = if b = a then some v else Memory.read? m b := by
  induction m with
  | nil => simp [Memory.write, Memory.read?, eq_comm]
  | cons e rest ih =>
    obtain ⟨k, u⟩ := e
    simp only [Memory.write]
    split_ifs <;> simp only [Memory.read?] <;> grind

@[simp] theorem Memory.read?_write_same (m : List (Nat × BitVec w)) (a : Nat) (v : BitVec w) :
    Memory.read? (Memory.write m a v) a = some v := by
  simp [Memory.read?_write]

theorem Memory.read?_write_other (m : List (Nat × BitVec w)) {a b : Nat} (v : BitVec w) (h : b ≠ a) :
    Memory.read? (Memory.write m a v) b = Memory.read? m b := by
  simp [Memory.read?_write, h]

theorem Memory.risesFrom_write (m : List (Nat × BitVec w)) (lo a : Nat) (v : BitVec w)
    (hm : Memory.risesFrom lo m = true) (hlo : lo ≤ a) (ha : a < 256) :
    Memory.risesFrom lo (Memory.write m a v) = true := by
  induction m generalizing lo with
  | nil => simp [Memory.write, Memory.risesFrom, hlo, ha]
  | cons e rest ih =>
    obtain ⟨k, u⟩ := e
    simp only [Memory.risesFrom, Bool.and_eq_true, decide_eq_true_eq] at hm
    obtain ⟨⟨h1, h2⟩, h3⟩ := hm
    simp only [Memory.write]
    split_ifs with hlt heq
    · simp [Memory.risesFrom, hlo, ha, h2, h3, hlt]
    · subst heq; simp [Memory.risesFrom, hlo, ha, h3]
    · simp [Memory.risesFrom, h1, h2, ih (k + 1) h3 (by omega)]

/-- A write inside the address space keeps the canonical form. -/
theorem Memory.wf_write (m : List (Nat × BitVec w)) (a : Addr) (v : BitVec w) (hm : Memory.wf m = true) :
    Memory.wf (Memory.write m a.toNat v) = true :=
  Memory.risesFrom_write m 0 a.toNat v hm (Nat.zero_le _) a.isLt

/-- An image is placed in canonical form. -/
theorem Memory.wf_ofImage (image : List (Addr × BitVec w)) (m : List (Nat × BitVec w))
    (hm : Memory.wf m = true) : Memory.wf (Memory.ofImage image m) = true := by
  induction image generalizing m with
  | nil => exact hm
  | cons e rest ih => exact ih _ (Memory.wf_write m e.1 e.2 hm)

/-- An image leaves a cell it does not name as it was. -/
theorem Memory.read?_ofImage_other (image : List (Addr × BitVec w)) (m : List (Nat × BitVec w)) (a : Addr)
    (h : ∀ e ∈ image, e.1 ≠ a) : Memory.read? (Memory.ofImage image m) a.toNat = Memory.read? m a.toNat := by
  induction image generalizing m with
  | nil => rfl
  | cons e rest ih =>
    rw [Memory.ofImage, ih _ fun x hx => h x (List.mem_cons_of_mem _ hx),
      Memory.read?_write_other _ _ fun hx => h e List.mem_cons_self (BitVec.eq_of_toNat_eq hx).symm]

theorem Memory.ofImage_append (front back : List (Addr × BitVec w)) (m : List (Nat × BitVec w)) :
    Memory.ofImage (front ++ back) m = Memory.ofImage back (Memory.ofImage front m) := by
  induction front generalizing m with
  | nil => rfl
  | cons e rest ih => exact ih _

theorem State.wf_store (s : State) (a : Addr) (v : Word) (h : Memory.wf s.dmem = true) :
    Memory.wf (s.store a v).dmem = true :=
  Memory.wf_write s.dmem a v h

theorem State.wf_placeWord (s : State) (a : Addr) (v : InstrWord) (h : Memory.wf s.imem = true) :
    Memory.wf (s.placeWord a v).imem = true :=
  Memory.wf_write s.imem a v h

theorem State.wf_reset : Memory.wf State.reset.dmem = true ∧ Memory.wf State.reset.imem = true :=
  ⟨rfl, rfl⟩

/-- A cell reads back what was stored in it; other cells are as before. -/
theorem State.dataCell_store (s : State) (a b : Addr) (v : Word) :
    (s.store a v).dataCell b = if b = a then some v else s.dataCell b := by
  simp [State.dataCell, Memory.read?_write, BitVec.toNat_inj]

theorem State.load_of_dataCell (s : State) {a : Addr} {v : Word} (h : s.dataCell a = some v) : s.load a = v := by
  simp [State.load, h]

/-- A load sees the cell alone. -/
theorem State.load_congr {s t : State} {a : Addr} (h : t.dataCell a = s.dataCell a) : t.load a = s.load a := by
  simp [State.load, h]

end Sys2Proof.Machine
end

