-- ==== Sys2Proof/Laws/Exec.lean ====
section
/-! SUPPORT. What each shared operation leaves behind, what each arm of `exec` answers, and the inversion of `step`. -/

namespace Sys2Proof.Machine

/-- What an arithmetic instruction leaves (41_arithmetic.md R110, R116). -/
theorem State.finishArithmetic_spec (s : State) (rd : Reg) (out : Word × Flags) :
    let t := s.finishArithmetic rd out
    (∀ r, t.reg r = if r = rd then out.1 else s.reg r) ∧
    t.flags = (if s.params.arithWritesFlags then out.2 else s.flags) ∧
    t.pc = s.pc + 1#8 ∧ t.dmem = s.dmem ∧ t.imem = s.imem ∧ t.params = s.params :=
  ⟨fun r => State.reg_setReg s rd r out.1, rfl, rfl, rfl, rfl, rfl⟩

/-- What a logic instruction leaves (42_logic.md R120). -/
theorem State.finishLogic_spec (s : State) (rd : Reg) (v : Word) :
    let t := s.finishLogic rd v
    (∀ r, t.reg r = if r = rd then v else s.reg r) ∧
    t.flags = (if s.params.arithWritesFlags then logicFlags s.flags v else s.flags) ∧
    t.pc = s.pc + 1#8 ∧ t.dmem = s.dmem ∧ t.imem = s.imem ∧ t.params = s.params :=
  ⟨fun r => State.reg_setReg s rd r v, rfl, rfl, rfl, rfl, rfl⟩

/-- What a comparison leaves (44_compare.md R140). -/
theorem State.finishCompare_spec (s : State) (a b : Word) :
    let t := s.finishCompare a b
    t.flags = (subFlags s.params.subCarry a b).2 ∧
    t.regs = s.regs ∧ t.pc = s.pc + 1#8 ∧ t.dmem = s.dmem ∧ t.imem = s.imem ∧ t.params = s.params :=
  ⟨rfl, rfl, rfl, rfl, rfl, rfl⟩

/-- What a conditional branch leaves (45_cond_branch.md R150). -/
theorem State.branchOn_spec (s : State) (k : Cond) (a : Addr) :
    let t := s.branchOn k a
    t.pc = (if condition s.params k s.flags then a else s.pc + 1#8) ∧
    t.regs = s.regs ∧ t.flags = s.flags ∧ t.dmem = s.dmem ∧ t.imem = s.imem ∧ t.params = s.params := by
  simp only [State.branchOn]
  split <;> exact ⟨rfl, rfl, rfl, rfl, rfl, rfl⟩

/-- Advancing the pc is adding one modulo 256 (10_state.md R27). -/
theorem toNat_pc_advance (p : Addr) : (p + 1#8).toNat = (p.toNat + 1) % 256 :=
  BitVec.toNat_add p 1#8

section Arms

variable (s : State) (rd rs1 rs2 : Reg) (imm : BitVec 8) (imm6 : BitVec 6) (a : Addr) (u : BitVec 2) (u10 : BitVec 10)

@[simp] theorem exec_li : exec (.li rd imm) s = .next (s.setReg rd (slit8 imm)).advance := rfl
@[simp] theorem exec_lwi : exec (.lwi rd a) s = .next (s.setReg rd (s.load a)).advance := rfl
@[simp] theorem exec_swi : exec (.swi rd a) s = .next (s.store a (s.reg rd)).advance := rfl
@[simp] theorem exec_add : exec (.add rd rs1 rs2) s
    = .next (s.finishArithmetic rd (addFlags (s.reg rs1) (s.reg rs2) false)) := rfl
@[simp] theorem exec_sub : exec (.sub rd rs1 rs2) s
    = .next (s.finishArithmetic rd (subFlags s.params.subCarry (s.reg rs1) (s.reg rs2))) := rfl
@[simp] theorem exec_addi : exec (.addi rd rs1 imm6) s
    = .next (s.finishArithmetic rd (addFlags (s.reg rs1) (slit6 imm6) false)) := rfl
@[simp] theorem exec_subi : exec (.subi rd rs1 imm6) s
    = .next (s.finishArithmetic rd (subFlags s.params.subCarry (s.reg rs1) (slit6 imm6))) := rfl
@[simp] theorem exec_and : exec (.and rd rs1 rs2) s = .next (s.finishLogic rd (s.reg rs1 &&& s.reg rs2)) := rfl
@[simp] theorem exec_or : exec (.or rd rs1 rs2) s = .next (s.finishLogic rd (s.reg rs1 ||| s.reg rs2)) := rfl
@[simp] theorem exec_xor : exec (.xor rd rs1 rs2) s = .next (s.finishLogic rd (s.reg rs1 ^^^ s.reg rs2)) := rfl
@[simp] theorem exec_nand : exec (.nand rd rs1 rs2) s = .next (s.finishLogic rd (~~~(s.reg rs1 &&& s.reg rs2))) := rfl
@[simp] theorem exec_nor : exec (.nor rd rs1 rs2) s = .next (s.finishLogic rd (~~~(s.reg rs1 ||| s.reg rs2))) := rfl
@[simp] theorem exec_xnor : exec (.xnor rd rs1 rs2) s = .next (s.finishLogic rd (~~~(s.reg rs1 ^^^ s.reg rs2))) := rfl
@[simp] theorem exec_b : exec (.b u a) s = .next (s.jump a) := rfl
@[simp] theorem exec_cp : exec (.cp u rs1 rs2) s = .next (s.finishCompare (s.reg rs1) (s.reg rs2)) := rfl
@[simp] theorem exec_cpi : exec (.cpi rd imm) s = .next (s.finishCompare (s.reg rd) (slit8 imm)) := rfl
@[simp] theorem exec_beq : exec (.beq u a) s = .next (s.branchOn .EQ a) := rfl
@[simp] theorem exec_bneq : exec (.bneq u a) s = .next (s.branchOn .NEQ a) := rfl
@[simp] theorem exec_blt : exec (.blt u a) s = .next (s.branchOn .LT a) := rfl
@[simp] theorem exec_blet : exec (.blet u a) s = .next (s.branchOn .LET a) := rfl
@[simp] theorem exec_bgt : exec (.bgt u a) s = .next (s.branchOn .GT a) := rfl
@[simp] theorem exec_bget : exec (.bget u a) s = .next (s.branchOn .GET a) := rfl
@[simp] theorem exec_nop : exec (.nop u10) s = .next s.advance := rfl

end Arms

/-- The six conditional branches by their condition. -/
theorem exec_branchInstr (k : Cond) (u : BitVec 2) (a : Addr) (s : State) :
    exec (branchInstr k u a) s = .next (s.branchOn k a) := by
  cases k <;> rfl

/-- The word placed for the host is the one the next step fetches. -/
theorem State.fetch_withFetchWord (s : State) (nbits w : Nat) :
    (s.withFetchWord nbits w).fetch = some (wordOfNat nbits w) :=
  Memory.read?_write_same ..

/-- A step that answers a next state fetched a word, decoded it and executed the instruction. -/
theorem step_next {s t : State} (h : step s = .next t) :
    ∃ w i, s.fetch = some w ∧ decode s.params.strictUnused w = .instr i ∧ exec i s = .next t := by
  unfold step at h
  split at h
  · cases h
  · next w hw =>
    split at h
    · next i hi => exact ⟨w, i, hw, hi, h⟩
    · cases h

end Sys2Proof.Machine
end

