-- ==== Sys2Proof/Laws/Flags.lean ====
section
/-! SUPPORT. The adder of 10_state.md R30 in arithmetic terms, for either carry in. -/

namespace Sys2Proof.Machine

/-- The sign bit of a word, as a bound on its unsigned value. -/
theorem word_bit7 (r : Word) : r.getLsbD 7 = decide (128 ≤ r.toNat) := by
  rw [show r.getLsbD 7 = r.msb from rfl, BitVec.msb_eq_decide]

/-- The sign bit of a word, as the sign of its signed value. -/
theorem word_bit7_neg (r : Word) : r.getLsbD 7 = decide (r.toInt < 0) := by
  rw [← BitVec.msb_eq_toInt]
  rfl

/-- The signed value of a word from its unsigned value. -/
theorem word_toInt (r : Word) : r.toInt = if 128 ≤ r.toNat then (r.toNat : Int) - 256 else r.toNat := by
  rw [BitVec.toInt_eq_toNat_cond]
  split <;> split <;> omega

theorem addFlags_toNat (a b : Word) (cin : Bool) :
    (addFlags a b cin).1.toNat = (a.toNat + b.toNat + cin.toNat) % 256 := by
  simp [addFlags]

theorem addFlags_c (a b : Word) (cin : Bool) :
    (addFlags a b cin).2.c = decide (256 ≤ a.toNat + b.toNat + cin.toNat) := by
  have ha := a.isLt
  have hb := b.isLt
  have bit8 : ∀ x : BitVec 9, x.getLsbD 8 = decide (256 ≤ x.toNat) := fun x => by
    rw [show x.getLsbD 8 = x.msb from rfl, BitVec.msb_eq_decide]
  simp only [addFlags, bit8]
  congr 1
  cases cin <;> simp <;> omega

theorem addFlags_ov (a b : Word) (cin : Bool) :
    (addFlags a b cin).2.ov
      = decide (a.toInt + b.toInt + cin.toNat < -128 ∨ 127 < a.toInt + b.toInt + cin.toNat) := by
  have ha := a.isLt
  have hb := b.isLt
  have hc : cin.toNat ≤ 1 := by cases cin <;> decide
  rw [show (addFlags a b cin).2.ov
      = (a.getLsbD 7 == b.getLsbD 7 && (addFlags a b cin).1.getLsbD 7 != a.getLsbD 7) from rfl,
    word_bit7, word_bit7, word_bit7, addFlags_toNat, word_toInt, word_toInt, Bool.eq_iff_iff]
  generalize cin.toNat = k at *
  generalize a.toNat = x at *
  generalize b.toNat = y at *
  simp only [Bool.and_eq_true, beq_iff_eq, bne_iff_ne, ne_eq, decide_eq_true_eq, decide_eq_decide]
  split_ifs <;> omega

/-- Everything the adder answers: the sum modulo 256 and its four flags. -/
theorem addFlags_spec (a b : Word) (cin : Bool) :
    let out := addFlags a b cin
    out.1.toNat = (a.toNat + b.toNat + cin.toNat) % 256 ∧
    out.2.c = decide (256 ≤ a.toNat + b.toNat + cin.toNat) ∧
    out.2.n = decide (out.1.toInt < 0) ∧
    out.2.z = decide (out.1 = 0) ∧
    out.2.ov = decide (a.toInt + b.toInt + cin.toNat < -128 ∨ 127 < a.toInt + b.toInt + cin.toNat) :=
  ⟨addFlags_toNat a b cin, addFlags_c a b cin, word_bit7_neg _, rfl, addFlags_ov a b cin⟩

@[simp] theorem subFlags_fst (p : SubCarry) (a b : Word) : (subFlags p a b).1 = (addFlags a (~~~b) true).1 := rfl

theorem subFlags_snd (p : SubCarry) (a b : Word) :
    (subFlags p a b).2
      = { (addFlags a (~~~b) true).2 with c := subCarryFlag p (addFlags a (~~~b) true).2.c } := rfl

end Sys2Proof.Machine
end

