-- ==== Sys2Proof/Laws/PerInstr.lean ====
section
/-! SUPPORT. Per-instruction laws. Family `TableRow`: an instruction's encoding matches its own row of the opcode table, the mask and
match values of spec/opcode_table.json (30_encoding.md R71). -/

namespace Sys2Proof.Laws

/-- The mask of an instruction's row: `0x7C0F` in layout R, `0x7C00` elsewhere (R71). -/
def TableRow.mask : Instr → InstrWord
  | .add _ _ _ | .sub _ _ _ | .and _ _ _ | .or _ _ _ | .xor _ _ _ | .nand _ _ _ | .nor _ _ _ | .xnor _ _ _ | .cp _ _ _ => 0x7C0F
  | .li _ _ | .lwi _ _ | .swi _ _ | .addi _ _ _ | .subi _ _ _ | .b _ _ | .cpi _ _ => 0x7C00
  | .beq _ _ | .bneq _ _ | .blt _ _ | .blet _ _ | .bgt _ _ | .bget _ _ | .nop _ => 0x7C00

/-- The match value of an instruction's row in spec/opcode_table.json. -/
def TableRow.matchValue : Instr → InstrWord
  | .li _ _ => 0x0400
  | .lwi _ _ => 0x0800
  | .swi _ _ => 0x0C00
  | .add _ _ _ => 0x0000
  | .sub _ _ _ => 0x0001
  | .addi _ _ _ => 0x1000
  | .subi _ _ _ => 0x1400
  | .and _ _ _ => 0x0002
  | .or _ _ _ => 0x0003
  | .xor _ _ _ => 0x0004
  | .nand _ _ _ => 0x0005
  | .nor _ _ _ => 0x0006
  | .xnor _ _ _ => 0x0007
  | .b _ _ => 0x1800
  | .cp _ _ _ => 0x0008
  | .cpi _ _ => 0x1C00
  | .beq _ _ => 0x2000
  | .bneq _ _ => 0x2400
  | .blt _ _ => 0x2800
  | .blet _ _ => 0x2C00
  | .bgt _ _ => 0x3000
  | .bget _ _ => 0x3400
  | .nop _ => 0x3800

/-- The instruction's word is in its own row of the opcode table. -/
def TableRow.Statement (i : Instr) : Prop :=
  encode i &&& TableRow.mask i = TableRow.matchValue i

theorem TableRow.layout8 (op : BitVec 5) (f : BitVec 2) (imm : BitVec 8) :
    encode8 op f imm &&& 0x7C00#15 = op ++ 0#10 := by
  apply BitVec.eq_of_getLsbD_eq
  intro k hk
  simp only [encode8, BitVec.getLsbD_and, BitVec.getLsbD_append]
  interval_cases k <;> simp

theorem TableRow.layout6 (op : BitVec 5) (rd rs1 : Reg) (imm : BitVec 6) :
    encode6 op rd rs1 imm &&& 0x7C00#15 = op ++ 0#10 := by
  apply BitVec.eq_of_getLsbD_eq
  intro k hk
  simp only [encode6, BitVec.getLsbD_and, BitVec.getLsbD_append]
  interval_cases k <;> simp

theorem TableRow.layoutR (f : BitVec 2) (rs1 rs2 : Reg) (fn : BitVec 4) :
    encodeR f rs1 rs2 fn &&& 0x7C0F#15 = 0#11 ++ fn := by
  apply BitVec.eq_of_getLsbD_eq
  intro k hk
  simp only [encodeR, BitVec.getLsbD_and, BitVec.getLsbD_append]
  interval_cases k <;> simp

theorem TableRow.layoutNone (u : BitVec 10) :
    (0b01110#5 ++ u) &&& 0x7C00#15 = 0b01110#5 ++ 0#10 := by
  apply BitVec.eq_of_getLsbD_eq
  intro k hk
  simp only [BitVec.getLsbD_and, BitVec.getLsbD_append]
  interval_cases k <;> simp

theorem TableRow.li (rd : Reg) (imm : BitVec 8) : TableRow.Statement (.li rd imm) :=
  TableRow.layout8 ..

theorem TableRow.lwi (rd : Reg) (a : Addr) : TableRow.Statement (.lwi rd a) :=
  TableRow.layout8 ..

theorem TableRow.swi (rd : Reg) (a : Addr) : TableRow.Statement (.swi rd a) :=
  TableRow.layout8 ..

theorem TableRow.add (rd rs1 rs2 : Reg) : TableRow.Statement (.add rd rs1 rs2) :=
  TableRow.layoutR ..

theorem TableRow.sub (rd rs1 rs2 : Reg) : TableRow.Statement (.sub rd rs1 rs2) :=
  TableRow.layoutR ..

theorem TableRow.addi (rd rs1 : Reg) (imm : BitVec 6) : TableRow.Statement (.addi rd rs1 imm) :=
  TableRow.layout6 ..

theorem TableRow.subi (rd rs1 : Reg) (imm : BitVec 6) : TableRow.Statement (.subi rd rs1 imm) :=
  TableRow.layout6 ..

theorem TableRow.and (rd rs1 rs2 : Reg) : TableRow.Statement (.and rd rs1 rs2) :=
  TableRow.layoutR ..

theorem TableRow.or (rd rs1 rs2 : Reg) : TableRow.Statement (.or rd rs1 rs2) :=
  TableRow.layoutR ..

theorem TableRow.xor (rd rs1 rs2 : Reg) : TableRow.Statement (.xor rd rs1 rs2) :=
  TableRow.layoutR ..

theorem TableRow.nand (rd rs1 rs2 : Reg) : TableRow.Statement (.nand rd rs1 rs2) :=
  TableRow.layoutR ..

theorem TableRow.nor (rd rs1 rs2 : Reg) : TableRow.Statement (.nor rd rs1 rs2) :=
  TableRow.layoutR ..

theorem TableRow.xnor (rd rs1 rs2 : Reg) : TableRow.Statement (.xnor rd rs1 rs2) :=
  TableRow.layoutR ..

theorem TableRow.b (u : BitVec 2) (a : Addr) : TableRow.Statement (.b u a) :=
  TableRow.layout8 ..

theorem TableRow.cp (u : BitVec 2) (rs1 rs2 : Reg) : TableRow.Statement (.cp u rs1 rs2) :=
  TableRow.layoutR ..

theorem TableRow.cpi (rd : Reg) (imm : BitVec 8) : TableRow.Statement (.cpi rd imm) :=
  TableRow.layout8 ..

theorem TableRow.beq (u : BitVec 2) (a : Addr) : TableRow.Statement (.beq u a) :=
  TableRow.layout8 ..

theorem TableRow.bneq (u : BitVec 2) (a : Addr) : TableRow.Statement (.bneq u a) :=
  TableRow.layout8 ..

theorem TableRow.blt (u : BitVec 2) (a : Addr) : TableRow.Statement (.blt u a) :=
  TableRow.layout8 ..

theorem TableRow.blet (u : BitVec 2) (a : Addr) : TableRow.Statement (.blet u a) :=
  TableRow.layout8 ..

theorem TableRow.bgt (u : BitVec 2) (a : Addr) : TableRow.Statement (.bgt u a) :=
  TableRow.layout8 ..

theorem TableRow.bget (u : BitVec 2) (a : Addr) : TableRow.Statement (.bget u a) :=
  TableRow.layout8 ..

theorem TableRow.nop (u : BitVec 10) : TableRow.Statement (.nop u) :=
  TableRow.layoutNone ..

end Sys2Proof.Laws
end

