-- ==== Sys2Proof/Tests/Slice0.lean ====
section
/-! SUPPORT. Tests with expected results from the tables and worked examples of spec/ (95_test_vectors.md and the instruction rules),
and a witness for the hypotheses of every statement. -/

namespace Sys2Proof.Tests

open Sys2Proof.Machine

/-- A small state: registers, flags C N Z OV, pc; default parameters, nothing in either memory. -/
def small (r0 r1 r2 r3 : Word) (c n z ov : Bool) (pc : Addr) : State :=
  { State.reset with regs := ⟨r0, r1, r2, r3⟩, flags := ⟨c, n, z, ov⟩, pc := pc }

/-- The small state under `CMP_MODE = unsigned` and a polarity of C. -/
def unsignedState (p : SubCarry) (s : State) : State :=
  { s with params := { s.params with cmpMode := .unsigned, subCarry := p } }

/-- The instruction answers a next state with the property. -/
def after (i : Instr) (s : State) (p : State → Bool) : Bool :=
  match exec i s with
  | .next t => p t
  | _ => false

/-- The step answers a next state with the property. -/
def afterStep (s : State) (p : State → Bool) : Bool :=
  match step s with
  | .next t => p t
  | _ => false

/-! ### WellFormed: an ill-formed term for each check (R72) -/

theorem test_wf_b : (Instr.b 1 7).wellFormed true = false ∧ (Instr.b 1 7).wellFormed false = true := by decide
theorem test_wf_cp : (Instr.cp 3 .r1 .r2).wellFormed true = false ∧ (Instr.cp 0 .r1 .r2).wellFormed true = true := by decide
theorem test_wf_beq : (Instr.beq 2 0).wellFormed true = false := by decide
theorem test_wf_bneq : (Instr.bneq 2 0).wellFormed true = false := by decide
theorem test_wf_blt : (Instr.blt 1 0).wellFormed true = false := by decide
theorem test_wf_blet : (Instr.blet 1 0).wellFormed true = false := by decide
theorem test_wf_bgt : (Instr.bgt 3 0).wellFormed true = false := by decide
theorem test_wf_bget : (Instr.bget 3 6).wellFormed true = false := by decide
theorem test_wf_nop : (Instr.nop 0x200).wellFormed true = false ∧ (Instr.nop 0).wellFormed true = true := by decide
theorem test_wf_no_unused_bits : (Instr.add .r3 .r3 .r3).wellFormed true = true := by decide

/-! ### Decoding: the words of 95_test_vectors.md section 2.1, bit by bit -/

theorem test_decode_li : decode true 0b000011011111111#15 = .instr (.li .r2 0xFF) := by decide
theorem test_decode_lwi : decode true 0b000101100100000#15 = .instr (.lwi .r3 0x20) := by decide
theorem test_decode_swi : decode true 0b000110011111111#15 = .instr (.swi .r0 0xFF) := by decide
theorem test_decode_add : decode true 0b000000110110000#15 = .instr (.add .r1 .r2 .r3) := by decide
theorem test_decode_zero_word_is_add : decode true 0b000000000000000#15 = .instr (.add .r0 .r0 .r0) := by decide
theorem test_decode_sub : decode true 0b000000001100001#15 = .instr (.sub .r0 .r1 .r2) := by decide
theorem test_decode_addi : decode true 0b001001000100000#15 = .instr (.addi .r2 .r0 0b100000) := by decide
theorem test_decode_subi : decode true 0b001011110100000#15 = .instr (.subi .r3 .r2 0b100000) := by decide
theorem test_decode_and : decode true 0b000000001100010#15 = .instr (.and .r0 .r1 .r2) := by decide
theorem test_decode_or : decode true 0b000001111000011#15 = .instr (.or .r3 .r3 .r0) := by decide
theorem test_decode_xor : decode true 0b000000101010100#15 = .instr (.xor .r1 .r1 .r1) := by decide
theorem test_decode_nand : decode true 0b000001000010101#15 = .instr (.nand .r2 .r0 .r1) := by decide
theorem test_decode_nor : decode true 0b000000010110110#15 = .instr (.nor .r0 .r2 .r3) := by decide
theorem test_decode_xnor : decode true 0b000001101100111#15 = .instr (.xnor .r3 .r1 .r2) := by decide
theorem test_decode_b : decode false 0b001101100000111#15 = .instr (.b 3 0x07) := by decide
theorem test_decode_b_strict : decode true 0b001101100000111#15 = .invalid .unusedBitsSet := by decide
theorem test_decode_cp : decode false 0b000001101101000#15 = .instr (.cp 3 .r1 .r2) := by decide
theorem test_decode_cpi : decode true 0b001110010000000#15 = .instr (.cpi .r0 0x80) := by decide
theorem test_decode_beq : decode true 0b010000000010000#15 = .instr (.beq 0 0x10) := by decide
theorem test_decode_bneq : decode true 0b010010000000010#15 = .instr (.bneq 0 0x02) := by decide
theorem test_decode_blt : decode true 0b010100010000000#15 = .instr (.blt 0 0x80) := by decide
theorem test_decode_blet : decode true 0b010110011111111#15 = .instr (.blet 0 0xFF) := by decide
theorem test_decode_bgt : decode true 0b011000000000000#15 = .instr (.bgt 0 0x00) := by decide
theorem test_decode_bget : decode false 0b011011100000110#15 = .instr (.bget 3 0x06) := by decide
theorem test_decode_nop : decode false 0b011101111111111#15 = .instr (.nop 0x3FF) := by decide
theorem test_decode_nop_strict : decode true 0b011101111111111#15 = .invalid .unusedBitsSet := by decide
theorem test_decode_function_9 : decode false 0x0009#15 = .invalid .unassignedFunction := by decide
theorem test_decode_function_15 : decode false 0x03FF#15 = .invalid .unassignedFunction := by decide
theorem test_decode_opcode_15 : decode false 0x3C00#15 = .invalid .unassignedOpcode := by decide
theorem test_decode_opcode_31 : decode false 0x7FFF#15 = .invalid .unassignedOpcode := by decide
theorem test_encode_li : encode (.li .r1 5) = 0x0505#15 := by decide
theorem test_encode_addi : encode (.addi .r1 .r1 0x3F) = 0x117F#15 := by decide
theorem test_encode_xnor : encode (.xnor .r3 .r1 .r2) = 0x0367#15 := by decide
theorem test_table_word : decodeTableWord 16 0x1806 = some (.b 0 6) ∧ decodeTableWord 16 0x3C00 = none := by decide

/-! ### Load and store (95_test_vectors.md section 2.2) -/

theorem test_li_minus_128 :
    after (.li .r0 0x80) (small 1 2 3 4 true false true false 0xFF)
      (fun t => t.regs == ⟨0x80, 2, 3, 4⟩ && t.pc == 0 && t.flags == ⟨true, false, true, false⟩) = true := by decide

theorem test_lwi_row_5 :
    after (.lwi .r3 0x20) ((small 0 0 0 0 true false true false 0).store 0x20 0x9C)
      (fun t => t.regs == ⟨0, 0, 0, 0x9C⟩ && t.pc == 1 && t.flags == ⟨true, false, true, false⟩) = true := by decide

theorem test_swi_row_8 :
    after (.swi .r0 0xFF) ((small 0x2A 1 2 3 true false true false 0).store 0x20 0x9C)
      (fun t => t.dmem == [(0x20, 0x9C), (0xFF, 0x2A)] && t.regs == ⟨0x2A, 1, 2, 3⟩ && t.pc == 1) = true := by decide

/-! ### Arithmetic (95_test_vectors.md section 2.3); flags C N Z OV -/

theorem test_add_128_128 :
    after (.add .r2 .r0 .r1) (small 0x80 0x80 7 0 false true false false 0)
      (fun t => t.regs == ⟨0x80, 0x80, 0, 0⟩ && t.flags == ⟨true, false, true, true⟩) = true := by decide

theorem test_add_same_register :
    after (.add .r1 .r1 .r1) (small 0 0x41 0 0 false false false false 0)
      (fun t => t.regs == ⟨0, 0x82, 0, 0⟩ && t.flags == ⟨false, true, false, true⟩) = true := by decide

theorem test_sub_borrow :
    after (.sub .r0 .r1 .r2) (small 0 0x03 0x05 0 true false true true 0)
      (fun t => t.regs == ⟨0xFE, 3, 5, 0⟩ && t.flags == ⟨false, true, false, false⟩) = true := by decide

theorem test_sub_overflow :
    after (.sub .r0 .r1 .r2) (small 0 0x00 0x80 0 true false true false 0)
      (fun t => t.regs.r0 == 0x80 && t.flags == ⟨false, true, false, true⟩) = true := by decide

theorem test_addi_minus_32 :
    after (.addi .r1 .r0 0x20) (small 0x90 0 0 0 false false false false 0)
      (fun t => t.regs.r1 == 0x70 && t.flags == ⟨true, false, false, true⟩) = true := by decide

theorem test_addi_minus_1_at_0 :
    after (.addi .r1 .r0 0x3F) (small 0x00 0 0 0 true false false false 0)
      (fun t => t.regs.r1 == 0xFF && t.flags == ⟨false, true, false, false⟩) = true := by decide

theorem test_subi_minus_32 :
    after (.subi .r1 .r0 0x20) (small 0x70 0 0 0 true false false false 0)
      (fun t => t.regs.r1 == 0x90 && t.flags == ⟨false, true, false, true⟩) = true := by decide

theorem test_subi_flags_off :
    after (.subi .r1 .r0 0x01)
      { small 0x01 5 0 0 false true false true 0 with params := { defaultParams with arithWritesFlags := false } }
      (fun t => t.regs.r1 == 0x00 && t.flags == ⟨false, true, false, true⟩) = true := by decide

/-! ### Logic (95_test_vectors.md section 2.4) -/

theorem test_and_keeps_c_ov :
    after (.and .r0 .r1 .r2) (small 0 0xCA 0xAC 0 true false false true 0)
      (fun t => t.regs.r0 == 0x88 && t.flags == ⟨true, true, false, true⟩) = true := by decide

theorem test_or :
    after (.or .r3 .r3 .r0) (small 0xF0 0 0 0x0F false false false false 0)
      (fun t => t.regs == ⟨0xF0, 0, 0, 0xFF⟩ && t.flags == ⟨false, true, false, false⟩) = true := by decide

theorem test_xor_same_register :
    after (.xor .r1 .r1 .r1) (small 0 0x5A 0 0 false true false true 0)
      (fun t => t.regs.r1 == 0 && t.flags == ⟨false, false, true, true⟩) = true := by decide

theorem test_nand :
    after (.nand .r2 .r0 .r1) (small 0xCA 0xAC 0 0 false true true false 0)
      (fun t => t.regs.r2 == 0x77 && t.flags == ⟨false, false, false, false⟩) = true := by decide

theorem test_nor :
    after (.nor .r0 .r2 .r3) (small 0 0 0xCA 0xAC false true true false 0)
      (fun t => t.regs.r0 == 0x11 && t.flags == ⟨false, false, false, false⟩) = true := by decide

theorem test_xnor :
    after (.xnor .r3 .r1 .r2) (small 0 0xCA 0xAC 0 false false true false 0)
      (fun t => t.regs.r3 == 0x99 && t.flags == ⟨false, true, false, false⟩) = true := by decide

/-! ### Jump, comparison, branches, NOP (95_test_vectors.md sections 2.5 to 2.8) -/

theorem test_b :
    after (.b 3 0x07) (small 1 2 3 4 true true false false 0x03)
      (fun t => t == small 1 2 3 4 true true false false 0x07) = true := by decide

theorem test_cp :
    after (.cp 3 .r1 .r2) (small 0 0x80 0x01 9 false true true false 0)
      (fun t => t.regs == ⟨0, 0x80, 0x01, 9⟩ && t.flags == ⟨true, false, false, true⟩) = true := by decide

theorem test_cpi_minus_128 :
    after (.cpi .r1 0x80) (small 0 0x7F 0 0 true false true false 0)
      (fun t => t.regs.r1 == 0x7F && t.flags == ⟨false, true, false, true⟩ && t.pc == 1) = true := by decide

theorem test_cpi_borrow_polarity :
    after (.cpi .r1 0x01) (unsignedState .borrow (small 0 0xFF 0 0 true false true false 0))
      (fun t => t.flags == ⟨false, true, false, false⟩) = true := by decide

theorem test_beq_taken :
    after (.beq 0 0x10) (small 0 0 0 0 false false true false 0x05) (fun t => t.pc == 0x10) = true := by decide

theorem test_beq_not_taken :
    after (.beq 0 0x10) (small 0 0 0 0 true true false true 0x05) (fun t => t.pc == 0x06) = true := by decide

theorem test_bneq :
    after (.bneq 0 0x02) (small 0 0 0 0 false false true false 0x05) (fun t => t.pc == 0x06) = true := by decide

/-- After CP of 0x80 and 0x01 (C N Z OV = 1 0 0 1): signed taken. -/
theorem test_blt_signed :
    after (.blt 0 0x80) (small 0 0 0 0 true false false true 0x05) (fun t => t.pc == 0x80) = true := by decide

/-- The same flags: unsigned not taken. -/
theorem test_blt_unsigned :
    after (.blt 0 0x80) (unsignedState .carry (small 0 0 0 0 true false false true 0x05)) (fun t => t.pc == 0x06) = true := by
  decide

theorem test_blet_equal :
    after (.blet 0 0xFF) (small 0 0 0 0 true false true false 0x05) (fun t => t.pc == 0xFF) = true := by decide

/-- After CP of 0x7F and 0x80 (0 1 0 1): signed taken. -/
theorem test_bgt_signed :
    after (.bgt 0 0x00) (small 0 0 0 0 false true false true 0x05) (fun t => t.pc == 0x00) = true := by decide

/-- The same flags: unsigned not taken. -/
theorem test_bgt_unsigned :
    after (.bgt 0 0x00) (unsignedState .carry (small 0 0 0 0 false true false true 0x05)) (fun t => t.pc == 0x06) = true := by
  decide

theorem test_bget_not_taken :
    after (.bget 0 0x06) (small 0 0 0 0 false true false false 0x03) (fun t => t.pc == 0x04) = true := by decide

theorem test_nop_wraps :
    after (.nop 0x3FF) (small 1 2 3 4 true false true false 0xFF)
      (fun t => t == small 1 2 3 4 true false true false 0x00) = true := by decide

/-- 95_test_vectors.md P1, step 3: a step fetches, decodes and executes. -/
theorem test_step_add :
    afterStep ((small 0x00 0x05 0 0 true true true true 0x02).withFetchWord 16 0x0010)
      (fun t => t.regs.r0 == 0x05 && t.flags == ⟨false, false, false, false⟩ && t.pc == 0x03) = true := by decide

/-! ### Witnesses: a state and operands that meet the hypotheses of each statement -/

theorem witness_launch_images :
    let p : List (Addr × InstrWord) := [(0, 0x3800), (0xFF, 0x0505), (0, 0x1800)]
    p = [(0, 0x3800), (0xFF, 0x0505)] ++ (0, 0x1800) :: [] ∧ (∀ e ∈ p, e.1 ≠ 0x10) ∧
      (State.launch defaultParams 0 ⟨1, 2, 3, 4⟩ ⟨true, false, true, false⟩ p [(0xFF, 9)]).instrWord 0 = some 0x1800 := by
  exact ⟨rfl, by simp, rfl⟩

theorem witness_first_instruction :
    let s := State.launch defaultParams resetPc ⟨1, 2, 3, 4⟩ ⟨true, false, true, false⟩ [(0, 0x0505)] []
    s.instrWord 0 = some 0x0505 ∧ decode false 0x0505 = .instr (.li .r1 5) := by decide

theorem witness_step_decodes :
    let s := (small 1 2 3 4 true false true false 0xFF).withFetchWord 16 0x3BFF
    s.instrWord s.pc = some 0x3BFF ∧ decode s.params.strictUnused 0x3BFF = .instr (.nop 0x3FF) := by decide

theorem witness_step_faults :
    State.reset.instrWord State.reset.pc = none ∧ step State.reset = .fault .undefinedProgramWord := ⟨rfl, rfl⟩

theorem witness_step_refuses_function_9 :
    step (State.reset.withFetchWord 16 0x0009) = .refused (.illegalWord .unassignedFunction) := rfl

theorem witness_step_refuses_opcode_15 :
    step (State.reset.withFetchWord 16 0x3C00) = .refused (.illegalWord .unassignedOpcode) := rfl

theorem witness_unassigned_boundaries :
    (15 ≤ (0x3C00#15).toNat / 1024) ∧ ¬ (15 ≤ (0x3BFF#15).toNat / 1024) ∧
    ((0x0009#15).toNat / 1024 = 0 ∧ 9 ≤ (0x0009#15).toNat % 16) ∧ ¬ (9 ≤ (0x0008#15).toNat % 16) := by decide

theorem witness_strict_word :
    let s := { State.reset with params := { defaultParams with strictUnused := true } }.withFetchWord 16 0x1B07
    s.params.strictUnused = true ∧ s.instrWord s.pc = some 0x1B07 ∧ decode true 0x1B07 = .invalid .unusedBitsSet := by decide

theorem witness_wellFormed_strict : (Instr.bget 0 6).wellFormed true = true ∧ (Instr.bget 3 6).wellFormed false = true := by
  decide

theorem witness_defined_cell : (State.reset.store 0x20 0x9C).dataCell 0x20 = some 0x9C ∧ State.reset.dataCell 0x20 = none := by
  decide

/-- A load of a cell never written completes with the free value, whatever it is. -/
theorem witness_undefined_cell_loads :
    exec (.lwi .r0 0x20) State.reset = .next (State.reset.setReg .r0 (Config.unwrittenData 0x20)).advance := rfl

theorem witness_no_store_to_cell :
    (∀ i ∈ [Instr.swi .r1 0x21, .lwi .r2 0x20, .nop 0], storesTo i ≠ some 0x20) ∧
    ∃ t u, exec (.swi .r0 0x20) (small 7 8 9 1 false false false false 0) = .next t ∧
      execAll [.swi .r1 0x21, .lwi .r2 0x20, .nop 0] t = .next u :=
  ⟨by decide, _, _, rfl, rfl⟩

theorem witness_launch_value_kept :
    (State.reset.store 0x20 0x9C).dataCell 0x20 = some 0x9C ∧
    ∃ u, execAll [.swi .r1 0x21, .nop 0] (State.reset.store 0x20 0x9C) = .next u :=
  ⟨by decide, _, rfl⟩

theorem witness_repeated_loads :
    ∃ t u, exec (.lwi .r0 0x20) State.reset = .next t ∧ execAll [.swi .r1 0x21] t = .next u := ⟨_, _, rfl, rfl⟩

theorem witness_flags_on : State.reset.params.arithWritesFlags = true := rfl

theorem witness_flags_off :
    { State.reset with params := { defaultParams with arithWritesFlags := false } }.params.arithWritesFlags = false := rfl

theorem witness_polarities :
    State.reset.params.subCarry = .carry ∧ (unsignedState .borrow State.reset).params.subCarry = .borrow := ⟨rfl, rfl⟩

theorem witness_addi_constants : 1 ≤ (1#6).toNat ∧ (31#6).toNat ≤ 31 ∧ State.reset.params.subCarry = .carry := by decide

theorem witness_addi_zero :
    ∃ t u, exec (.addi .r1 .r0 0) State.reset = .next t ∧ exec (.subi .r1 .r0 0) State.reset = .next u := ⟨_, _, rfl, rfl⟩

theorem witness_arithmetic_column : flagsColumn (.subi .r0 .r1 3) = .arithmetic ∧ flagsColumn (.add .r0 .r1 .r2) = .arithmetic := by
  decide

theorem witness_logic_rows :
    (flagsColumn (.and .r0 .r1 .r2), flagsColumn (.xnor .r3 .r3 .r3), destination (.xnor .r3 .r3 .r3))
      = (.logic, .logic, some .r3) := by decide

theorem witness_jump_to_itself : exec (.b 0 (small 1 2 3 4 true false true false 9).pc) (small 1 2 3 4 true false true false 9)
    = .next (small 1 2 3 4 true false true false 9) := rfl

theorem witness_modes :
    State.reset.params.cmpMode = .signed ∧ (unsignedState .carry State.reset).params.cmpMode = .unsigned ∧
    (unsignedState .carry State.reset).params.subCarry = .carry ∧
    (unsignedState .borrow State.reset).params.cmpMode = .unsigned ∧
    (unsignedState .borrow State.reset).params.subCarry = .borrow := ⟨rfl, rfl, rfl, rfl, rfl⟩

theorem witness_cp_signed_overflow :
    after (.cp 0 .r0 .r1) (small 0x80 0x7F 0 0 false false false false 5)
      (fun t => signedOrder .LT 0x80 0x7F && after (.blt 0 0x80) t (fun u => u.pc == 0x80)) = true := by decide

theorem witness_cp_unsigned :
    after (.cp 0 .r0 .r1) (unsignedState .carry (small 0x80 0x7F 0 0 false false false false 5))
      (fun t => unsignedOrder .GT 0x80 0x7F && after (.bgt 0 0x80) t (fun u => u.pc == 0x80)) = true := by decide

theorem witness_cp_unsigned_borrow :
    after (.cp 0 .r0 .r1) (unsignedState .borrow (small 0x80 0x7F 0 0 false false false false 5))
      (fun t => t.flags.c == false && after (.bgt 0 0x80) t (fun u => u.pc == 0x80)) = true := by decide

theorem witness_signed_branch :
    ∃ x y, exec (branchInstr .LT 0 9) (small 1 2 3 4 true false true false 5) = .next x ∧
      exec (branchInstr .LT 0 9) (small 1 2 3 4 false false true false 5) = .next y := ⟨_, _, rfl, rfl⟩

theorem witness_cpi_answers : ∃ t, exec (.cpi .r1 0x80) State.reset = .next t := ⟨_, rfl⟩

theorem witness_top_bits :
    (0x7F#8).getLsbD 7 = (0x00#8).getLsbD 7 ∧ (0x80#8).getLsbD 7 ≠ (0x7F#8).getLsbD 7 ∧ Cond.LT ≠ .EQ ∧ Cond.LT ≠ .NEQ := by decide

theorem witness_branch_after_add :
    State.reset.params.arithWritesFlags = true ∧ (∃ t, exec (.add .r0 .r1 .r2) State.reset = .next t) ∧
    (∃ t, exec (.sub .r0 .r1 .r2) State.reset = .next t) ∧ (∃ t, exec (.xor .r0 .r1 .r2) State.reset = .next t) :=
  ⟨rfl, ⟨_, rfl⟩, ⟨_, rfl⟩, ⟨_, rfl⟩⟩

/-- 41_arithmetic.md R113: 0x05 + (-1) has a carry and 0x00 + (-1) has none, so that unsigned LT holds after the second alone. -/
theorem witness_branch_after_addi :
    after (.addi .r1 .r0 0x3F) (unsignedState .carry (small 0x05 0 0 0 false false false false 5))
      (fun t => after (.blt 0 0x80) t (fun u => u.pc == 0x07)) = true ∧
    after (.addi .r1 .r0 0x3F) (unsignedState .carry (small 0x00 0 0 0 false false false false 5))
      (fun t => after (.blt 0 0x80) t (fun u => u.pc == 0x80)) = true := by decide

/-- 41_arithmetic.md R114: 0x70 - (-32) overflows; signed GT holds after it, and unsigned LT (0x70 below 0xE0). -/
theorem witness_branch_after_subi :
    after (.subi .r1 .r0 0x20) (small 0x70 0 0 0 false false false false 5)
      (fun t => after (.bgt 0 0x80) t (fun u => u.pc == 0x80)) = true ∧
    after (.subi .r1 .r0 0x20) (unsignedState .carry (small 0x70 0 0 0 false false false false 5))
      (fun t => after (.blt 0 0x80) t (fun u => u.pc == 0x80)) = true := by decide

theorem witness_cpi_equal_top_bits :
    ((small 0x80 0 0 0 false false false false 5).reg .r0).getLsbD 7 = (0xFF#8).getLsbD 7 ∧
    ∃ t, exec (.cpi .r0 0xFF) (small 0x80 0 0 0 false false false false 5) = .next t := ⟨by decide, _, rfl⟩

theorem witness_not_a_branch :
    (∀ u a, Instr.nop 0 ≠ .b u a) ∧ (∀ k u a, Instr.nop 0 ≠ branchInstr k u a) ∧ ∃ t, exec (.nop 0) State.reset = .next t :=
  ⟨fun _ _ h => Instr.noConfusion h, fun k _ _ => by cases k <;> exact fun h => Instr.noConfusion h, _, rfl⟩

theorem witness_branch_conditions :
    branchInstr .GET 0 6 = .bget 0 6 ∧ condition defaultParams .GET ⟨false, false, false, false⟩ = true ∧
    condition defaultParams .GET ⟨false, true, false, false⟩ = false := by decide

theorem witness_flag_columns :
    (flagsColumn (.lwi .r0 0), flagsColumn (.or .r0 .r1 .r2), flagsColumn (.addi .r0 .r1 0), flagsColumn (.cp 0 .r0 .r1))
      = (.ninguna, .logic, .arithmetic, .comparison) ∧
    (∃ t, exec (.cp 0 .r0 .r1) State.reset = .next t) ∧
    (∃ t, exec (.cp 0 .r0 .r1) { State.reset with flags := ⟨true, true, true, true⟩ } = .next t) :=
  ⟨by decide, ⟨_, rfl⟩, ⟨_, rfl⟩⟩

theorem witness_register_roles :
    destination (.swi .r1 0) ≠ some .r1 ∧ Reg.r0 ∉ sources (.add .r0 .r1 .r2) ∧ destination (.add .r0 .r1 .r2) = some .r0 := by decide

theorem witness_no_write_to_r0 : ∀ i ∈ [Instr.li .r1 5, .add .r2 .r0 .r1, .swi .r0 7, .cp 0 .r0 .r0], destination i ≠ some .r0 := by
  decide

theorem witness_swi_elsewhere : ∀ a, storesTo (.swi .r0 0x20) = some a → a.toNat ≠ 0x21 := by decide

theorem witness_final :
    ((small 1 2 3 4 true false true false 7).withFetchWord 16 0x1807).isFinal = true ∧
    decode false 0x1807 = .instr (.b 0 7) := by decide

theorem witness_invariant_step :
    ∃ t, State.Inv ((State.reset.store 0x20 0x9C).withFetchWord 16 0x0C10) ∧
      step ((State.reset.store 0x20 0x9C).withFetchWord 16 0x0C10) = .next t := ⟨_, ⟨rfl, rfl⟩, rfl⟩

end Sys2Proof.Tests
end

section
/-! One step at a fetched word that decodes: the converse of `step_next` (00_scope.md R7; 60_exceptions.md R184). -/

namespace Sys2Proof.Machine

/-- A fetched word that decodes to an instruction makes the step the execution of that instruction, whatever it answers. -/
theorem step_eq_exec {s : State} {w : InstrWord} {i : Instr} (hfetch : s.fetch = some w)
    (hdecode : decode s.params.strictUnused w = .instr i) : step s = exec i s := by
  simp only [step, hfetch, hdecode]

/-- Settles O4: the word at the pc is the fetched word, and `step_eq_exec` is the one branch of `step` it leaves. -/
theorem stepRunsTheDecodedInstruction : Obligations.StepRunsTheDecodedInstruction :=
  fun _ _ _ hword hdecode => step_eq_exec hword hdecode

end Sys2Proof.Machine
end

section
/-! What an instruction writes, said once for all 23: the word that goes to its destination register or data cell, and the flags
it computes. States that agree on what an instruction reads get the same written to them (10_state.md R25, R28, R31, R32). -/

namespace Sys2Proof.Machine

/-! ### What is read and what is written -/

/-- The two states agree on what the instruction reads beside the pc and the flags (R25), on the program and on the parameters. -/
structure SameInputs (i : Instr) (s s' : State) : Prop where
  reg : ∀ r ∈ sources i, s'.reg r = s.reg r
  dmem : s'.dmem = s.dmem
  imem : s'.imem = s.imem
  params : s'.params = s.params

theorem SameInputs.refl (i : Instr) (s : State) : SameInputs i s s :=
  ⟨fun _ _ => rfl, rfl, rfl, rfl⟩

theorem SameInputs.source {i : Instr} {s s' : State} {r : Reg} (h : SameInputs i s s') (hsrc : sources i = [r]) :
    s'.reg r = s.reg r :=
  h.reg r (by simp [hsrc])

theorem SameInputs.twoSources {i : Instr} {s s' : State} {r q : Reg} (h : SameInputs i s s') (hsrc : sources i = [r, q]) :
    s'.reg r = s.reg r ∧ s'.reg q = s.reg q :=
  ⟨h.reg r (by simp [hsrc]), h.reg q (by simp [hsrc])⟩

/-- The flags an instruction of the column leaves (R31): `on` is `ARITH_WRITES_FLAGS`, `v` the result of a logic instruction, `f`
the flags of the adder. -/
def FlagsColumn.written (column : FlagsColumn) (on : Bool) (old : Flags) (v : Word) (f : Flags) : Flags :=
  match column with
  | .ninguna => old
  | .logic => if on then logicFlags old v else old
  | .arithmetic => if on then f else old
  | .comparison => f

/-- From `s` to `t` the instruction writes `v` to the register or the data cell it has for it, and of the flags what its column
allows; the program and the parameters stand. The pc is left open. -/
structure Writes (i : Instr) (v : Word) (f : Flags) (s t : State) : Prop where
  reg : ∀ r, t.reg r = if destination i = some r then v else s.reg r
  flags : t.flags = (flagsColumn i).written s.params.arithWritesFlags s.flags v f
  dmem : t.dmem = (storesTo i).elim s.dmem fun a => Memory.write s.dmem a.toNat v
  imem : t.imem = s.imem
  params : t.params = s.params

/-- On both states the instruction is the same operation, which writes one word and one set of flags whatever it is applied to. -/
def RunsAlike (i : Instr) (s s' : State) : Prop :=
  ∃ (op : State → State) (v : Word) (f : Flags),
    exec i s = .next (op s) ∧ exec i s' = .next (op s') ∧ ∀ x, Writes i v f x (op x)

section SharedOperations

variable {i : Instr} {rd : Reg} {s s' : State}

/-- An operation that writes `v` to the destination register alone and keeps data memory. -/
theorem writes_destination {v : Word} {f : Flags} {x t : State} (hdest : destination i = some rd) (hstore : storesTo i = none)
    (hreg : ∀ r, t.reg r = if r = rd then v else x.reg r)
    (hflags : t.flags = (flagsColumn i).written x.params.arithWritesFlags x.flags v f)
    (hdmem : t.dmem = x.dmem) (himem : t.imem = x.imem) (hparams : t.params = x.params) : Writes i v f x t where
  reg r := by simp [hreg, hdest, eq_comm]
  flags := hflags
  dmem := by simp [hdmem, hstore]
  imem := himem
  params := hparams

theorem runsAlike_load (v : State → Word) (hv : v s' = v s)
    (hexec : ∀ x, exec i x = .next (x.setReg rd (v x)).advance)
    (hdest : destination i = some rd) (hcol : flagsColumn i = .ninguna) (hstore : storesTo i = none) :
    RunsAlike i s s' := by
  refine ⟨fun x => (x.setReg rd (v s)).advance, v s, s.flags, hexec s, hv ▸ hexec s', fun x => ?_⟩
  exact writes_destination hdest hstore (x.reg_setReg rd · (v s)) (by rw [hcol]; rfl) rfl rfl rfl

theorem runsAlike_arithmetic (out : State → Word × Flags) (hout : out s' = out s)
    (hexec : ∀ x, exec i x = .next (x.finishArithmetic rd (out x)))
    (hdest : destination i = some rd) (hcol : flagsColumn i = .arithmetic) (hstore : storesTo i = none) :
    RunsAlike i s s' := by
  refine ⟨fun x => x.finishArithmetic rd (out s), (out s).1, (out s).2, hexec s, hout ▸ hexec s', fun x => ?_⟩
  obtain ⟨hreg, hflags, -, hdmem, himem, hparams⟩ := x.finishArithmetic_spec rd (out s)
  exact writes_destination hdest hstore hreg (by rw [hflags, hcol]; rfl) hdmem himem hparams

theorem runsAlike_logic (v : State → Word) (hv : v s' = v s)
    (hexec : ∀ x, exec i x = .next (x.finishLogic rd (v x)))
    (hdest : destination i = some rd) (hcol : flagsColumn i = .logic) (hstore : storesTo i = none) :
    RunsAlike i s s' := by
  refine ⟨fun x => x.finishLogic rd (v s), v s, s.flags, hexec s, hv ▸ hexec s', fun x => ?_⟩
  obtain ⟨hreg, hflags, -, hdmem, himem, hparams⟩ := x.finishLogic_spec rd (v s)
  exact writes_destination hdest hstore hreg (by rw [hflags, hcol]; rfl) hdmem himem hparams

theorem runsAlike_compare (out : State → Word × Word) (hout : out s' = out s) (hparams : s'.params = s.params)
    (hexec : ∀ x, exec i x = .next (x.finishCompare (out x).1 (out x).2))
    (hdest : destination i = none) (hcol : flagsColumn i = .comparison) (hstore : storesTo i = none) :
    RunsAlike i s s' := by
  refine ⟨fun x => (x.setFlags (subFlags s.params.subCarry (out s).1 (out s).2).2).advance, 0,
    (subFlags s.params.subCarry (out s).1 (out s).2).2, hexec s, ?_, fun x => ?_⟩
  · rw [hexec, State.finishCompare, hout, hparams]
  · exact ⟨fun r => by simp [hdest], by rw [hcol]; rfl, by rw [hstore]; rfl, rfl, rfl⟩

theorem runsAlike_branch (k : Cond) (u : BitVec 2) (a : Addr) : RunsAlike (branchInstr k u a) s s' := by
  refine ⟨(State.branchOn · k a), 0, s.flags, exec_branchInstr .., exec_branchInstr .., fun x => ?_⟩
  obtain ⟨-, hregs, hflags, hdmem, himem, hparams⟩ := x.branchOn_spec k a
  have hreg (r : Reg) : (x.branchOn k a).reg r = x.reg r := by rw [State.reg, hregs]; rfl
  cases k <;> exact ⟨hreg, hflags, hdmem, himem, hparams⟩

end SharedOperations

section TwoRuns

variable {i : Instr} {s s' t u : State}

theorem runsAlike_of_sameInputs (h : SameInputs i s s') : RunsAlike i s s' := by
  cases i with
  | li rd imm => exact runsAlike_load (fun _ => slit8 imm) rfl (fun _ => rfl) rfl rfl rfl
  | lwi rd a =>
    have hload : s'.load a = s.load a := State.load_congr (by rw [State.dataCell, h.dmem]; rfl)
    exact runsAlike_load (·.load a) hload (fun _ => rfl) rfl rfl rfl
  | swi rd a =>
    refine ⟨fun x => (x.store a (s.reg rd)).advance, s.reg rd, s.flags, rfl, ?_,
      fun _ => ⟨fun _ => rfl, rfl, rfl, rfl, rfl⟩⟩
    rw [exec_swi, h.source rfl]
  | add rd rs1 rs2 =>
    exact runsAlike_arithmetic (fun x => addFlags (x.reg rs1) (x.reg rs2) false)
      (by simp [h.twoSources rfl]) (fun _ => rfl) rfl rfl rfl
  | sub rd rs1 rs2 =>
    exact runsAlike_arithmetic (fun x => subFlags x.params.subCarry (x.reg rs1) (x.reg rs2))
      (by simp [h.twoSources rfl, h.params]) (fun _ => rfl) rfl rfl rfl
  | addi rd rs1 imm =>
    exact runsAlike_arithmetic (fun x => addFlags (x.reg rs1) (slit6 imm) false)
      (by simp [h.source rfl]) (fun _ => rfl) rfl rfl rfl
  | subi rd rs1 imm =>
    exact runsAlike_arithmetic (fun x => subFlags x.params.subCarry (x.reg rs1) (slit6 imm))
      (by simp [h.source rfl, h.params]) (fun _ => rfl) rfl rfl rfl
  | and rd rs1 rs2 =>
    exact runsAlike_logic (fun x => x.reg rs1 &&& x.reg rs2) (by simp [h.twoSources rfl]) (fun _ => rfl) rfl rfl rfl
  | or rd rs1 rs2 =>
    exact runsAlike_logic (fun x => x.reg rs1 ||| x.reg rs2) (by simp [h.twoSources rfl]) (fun _ => rfl) rfl rfl rfl
  | xor rd rs1 rs2 =>
    exact runsAlike_logic (fun x => x.reg rs1 ^^^ x.reg rs2) (by simp [h.twoSources rfl]) (fun _ => rfl) rfl rfl rfl
  | nand rd rs1 rs2 =>
    exact runsAlike_logic (fun x => ~~~(x.reg rs1 &&& x.reg rs2)) (by simp [h.twoSources rfl]) (fun _ => rfl) rfl rfl rfl
  | nor rd rs1 rs2 =>
    exact runsAlike_logic (fun x => ~~~(x.reg rs1 ||| x.reg rs2)) (by simp [h.twoSources rfl]) (fun _ => rfl) rfl rfl rfl
  | xnor rd rs1 rs2 =>
    exact runsAlike_logic (fun x => ~~~(x.reg rs1 ^^^ x.reg rs2)) (by simp [h.twoSources rfl]) (fun _ => rfl) rfl rfl rfl
  | b v a => exact ⟨(·.jump a), 0, s.flags, rfl, rfl, fun _ => ⟨fun _ => rfl, rfl, rfl, rfl, rfl⟩⟩
  | cp v rs1 rs2 =>
    exact runsAlike_compare (fun x => (x.reg rs1, x.reg rs2)) (by simp [h.twoSources rfl]) h.params (fun _ => rfl) rfl rfl rfl
  | cpi rd imm =>
    exact runsAlike_compare (fun x => (x.reg rd, slit8 imm)) (by simp [h.source rfl]) h.params (fun _ => rfl) rfl rfl rfl
  | beq v a => exact runsAlike_branch .EQ v a
  | bneq v a => exact runsAlike_branch .NEQ v a
  | blt v a => exact runsAlike_branch .LT v a
  | blet v a => exact runsAlike_branch .LET v a
  | bgt v a => exact runsAlike_branch .GT v a
  | bget v a => exact runsAlike_branch .GET v a
  | nop v => exact ⟨State.advance, 0, s.flags, rfl, rfl, fun _ => ⟨fun _ => rfl, rfl, rfl, rfl, rfl⟩⟩

/-- Every instruction answers a next state (60_exceptions.md R180). -/
theorem exec_answers (i : Instr) (s : State) : ∃ t, exec i s = .next t := by
  obtain ⟨op, -, -, hs, -⟩ := runsAlike_of_sameInputs (SameInputs.refl i s)
  exact ⟨op s, hs⟩

/-- Two executions from states with the same inputs write the same word and the same computed flags. -/
theorem exec_writes (h : SameInputs i s s') (ht : exec i s = .next t) (hu : exec i s' = .next u) :
    ∃ v f, Writes i v f s t ∧ Writes i v f s' u := by
  obtain ⟨op, v, f, hs, hs', hw⟩ := runsAlike_of_sameInputs h
  cases hs.symm.trans ht
  cases hs'.symm.trans hu
  exact ⟨v, f, hw s, hw s'⟩

theorem exec_reg_kept (ht : exec i s = .next t) {r : Reg} (hr : destination i ≠ some r) : t.reg r = s.reg r := by
  obtain ⟨v, f, hw, -⟩ := exec_writes (SameInputs.refl i s) ht ht
  rw [hw.reg, if_neg hr]

/-- A register holds the same after both runs where the instruction writes it or where it held the same before them. -/
theorem exec_reg_alike (h : SameInputs i s s') (ht : exec i s = .next t) (hu : exec i s' = .next u) {r : Reg}
    (hr : destination i = some r ∨ s'.reg r = s.reg r) : u.reg r = t.reg r := by
  obtain ⟨v, f, hwt, hwu⟩ := exec_writes h ht hu
  rw [hwt.reg, hwu.reg]
  rcases hr with hdest | hsame
  · simp [hdest]
  · rw [hsame]

theorem exec_flags_alike (h : SameInputs i s s') (hflags : s'.flags = s.flags) (ht : exec i s = .next t)
    (hu : exec i s' = .next u) : u.flags = t.flags := by
  obtain ⟨v, f, hwt, hwu⟩ := exec_writes h ht hu
  rw [hwt.flags, hwu.flags, h.params, hflags]

theorem exec_dataKept_alike (h : SameInputs i s s') (ht : exec i s = .next t) (hu : exec i s' = .next u) :
    DataKept t u := by
  obtain ⟨v, f, hwt, hwu⟩ := exec_writes h ht hu
  intro a
  rw [hwt.dmem, hwu.dmem, h.dmem]

theorem exec_programKept_alike (h : SameInputs i s s') (ht : exec i s = .next t) (hu : exec i s' = .next u) :
    ProgramKept t u := by
  obtain ⟨v, f, hwt, hwu⟩ := exec_writes h ht hu
  refine ⟨fun a => ?_, ?_⟩
  · rw [hwt.imem, hwu.imem, h.imem]
  · rw [hwt.params, hwu.params, h.params]

end TwoRuns

/-! ### The pc -/

section Pc

variable {i : Instr} {s s' t u : State}

/-- An instruction is a B, a conditional branch, or one that advances the pc (10_state.md R27). -/
theorem isBranch_or_advances (i : Instr) :
    (∃ v a, i = .b v a) ∨ (∃ k v a, i = branchInstr k v a) ∨ ∀ s t, exec i s = .next t → t.pc = s.pc + 1#8 := by
  cases i with
  | b v a => exact .inl ⟨v, a, rfl⟩
  | beq v a => exact .inr (.inl ⟨.EQ, v, a, rfl⟩)
  | bneq v a => exact .inr (.inl ⟨.NEQ, v, a, rfl⟩)
  | blt v a => exact .inr (.inl ⟨.LT, v, a, rfl⟩)
  | blet v a => exact .inr (.inl ⟨.LET, v, a, rfl⟩)
  | bgt v a => exact .inr (.inl ⟨.GT, v, a, rfl⟩)
  | bget v a => exact .inr (.inl ⟨.GET, v, a, rfl⟩)
  | _ => exact .inr (.inr fun s t ht => by cases ht; rfl)

theorem exec_pc_of_not_branch (hb : ∀ v a, i ≠ .b v a) (hk : ∀ k v a, i ≠ branchInstr k v a) (ht : exec i s = .next t) :
    t.pc = s.pc + 1#8 := by
  rcases isBranch_or_advances i with ⟨v, a, rfl⟩ | ⟨k, v, a, rfl⟩ | hadvance
  · exact absurd rfl (hb v a)
  · exact absurd rfl (hk k v a)
  · exact hadvance s t ht

theorem exec_b_pc {v : BitVec 2} {a : Addr} (ht : exec (.b v a) s = .next t) : t.pc = a := by
  cases ht
  rfl

theorem exec_branchInstr_pc {k : Cond} {v : BitVec 2} {a : Addr} (ht : exec (branchInstr k v a) s = .next t) :
    t.pc = if condition s.params k s.flags then a else s.pc + 1#8 := by
  cases (exec_branchInstr k v a s).symm.trans ht
  exact (s.branchOn_spec k a).1

/-- The flags reach the pc through the conditional branches alone (45_cond_branch.md R150). -/
theorem exec_pc_alike (h : SameInputs i s s') (hpc : s'.pc = s.pc)
    (hflags : s'.flags = s.flags ∨ ∀ k v a, i ≠ branchInstr k v a) (ht : exec i s = .next t) (hu : exec i s' = .next u) :
    u.pc = t.pc := by
  rcases isBranch_or_advances i with ⟨v, a, rfl⟩ | ⟨k, v, a, rfl⟩ | hadvance
  · rw [exec_b_pc ht, exec_b_pc hu]
  · have hsame : s'.flags = s.flags := hflags.resolve_right fun hk => hk k v a rfl
    rw [exec_branchInstr_pc ht, exec_branchInstr_pc hu, hpc, h.params, hsame]
  · rw [hadvance s t ht, hadvance s' u hu, hpc]

theorem pcAdvanced_of_eq (h : t.pc = s.pc + 1#8) : PcAdvanced s t := by
  rw [PcAdvanced, h, toNat_pc_advance]

end Pc

end Sys2Proof.Machine
end

section
/-! The rules of 10_state.md about sequencing, operand roles and the status register, for all 23 instructions. -/

namespace Sys2Proof.Machine

/-- Settles O35: `isBranch_or_advances`, with the target of each kind of branch. -/
theorem sequencingIsPcPlusOneOrTheTarget : Obligations.SequencingIsPcPlusOneOrTheTarget := by
  intro i s t ht
  refine ⟨fun hb hk => pcAdvanced_of_eq (exec_pc_of_not_branch hb hk ht), ?_, ?_⟩
  · rintro v a rfl
    exact exec_b_pc ht
  · rintro k v a rfl
    have hpc := exec_branchInstr_pc ht
    refine ⟨fun hcond => ?_, fun hcond => pcAdvanced_of_eq ?_⟩ <;> simpa [hcond] using hpc

/-- Settles O36: another pc leaves an instruction its inputs, and the three kinds of `isBranch_or_advances` end at an address of
their own or at the next one. -/
theorem noInstructionReadsThePc : Obligations.NoInstructionReadsThePc := by
  intro i s t p ht
  obtain ⟨u, hu⟩ := exec_answers i { s with pc := p }
  have h : SameInputs i s { s with pc := p } := ⟨fun _ _ => rfl, rfl, rfl, rfl⟩
  refine ⟨u, hu, fun r => exec_reg_alike h ht hu (.inr rfl), exec_flags_alike h rfl ht hu, exec_dataKept_alike h ht hu,
    exec_programKept_alike h ht hu, ?_, fun hb hk => pcAdvanced_of_eq (exec_pc_of_not_branch hb hk hu)⟩
  rcases isBranch_or_advances i with ⟨v, a, rfl⟩ | ⟨k, v, a, rfl⟩ | hadvance
  · exact .inl ((exec_b_pc hu).trans (exec_b_pc ht).symm)
  · have htpc := exec_branchInstr_pc ht
    have hupc := exec_branchInstr_pc hu
    by_cases hcond : condition s.params k s.flags = true
    · rw [if_pos hcond] at htpc hupc
      exact .inl (hupc.trans htpc.symm)
    · rw [if_neg hcond] at htpc hupc
      exact .inr ⟨pcAdvanced_of_eq htpc, pcAdvanced_of_eq hupc⟩
  · exact .inr ⟨pcAdvanced_of_eq (hadvance s t ht), pcAdvanced_of_eq (hadvance _ u hu)⟩

/-- Settles O37: both runs write the flags of `FlagsColumn.written`, from one result and one set of adder flags. -/
theorem flagsAreWrittenAsTheColumnSays : Obligations.FlagsAreWrittenAsTheColumnSays := by
  intro i s t ht
  obtain ⟨v, g, hw, -⟩ := exec_writes (SameInputs.refl i s) ht ht
  refine ⟨fun hcol => ?_, fun hcol => ?_, fun hcol hoff => ?_, fun f u hu => ?_⟩
  · rw [hw.flags, hcol]
    rfl
  · rw [hw.flags, hcol, FlagsColumn.written]
    split <;> exact ⟨rfl, rfl⟩
  · rcases hcol with hcol | hcol <;> simp [hw.flags, hcol, hoff, FlagsColumn.written]
  · have h : SameInputs i s { s with flags := f } := ⟨fun _ _ => rfl, rfl, rfl, rfl⟩
    obtain ⟨_, _, hwt, hwu⟩ := exec_writes h ht hu
    rw [hwt.flags, hwu.flags]
    refine ⟨fun hcol hon => ?_, fun hcol hon => ?_, fun hcol => ?_⟩
    · simp [hcol, hon, FlagsColumn.written, logicFlags]
    · simp [hcol, hon, FlagsColumn.written]
    · simp [hcol, FlagsColumn.written]

/-- Settles O38: other flags leave an instruction its inputs, and only a conditional branch takes its pc from them. -/
theorem onlyConditionalBranchesReadTheFlags : Obligations.OnlyConditionalBranchesReadTheFlags := by
  intro i s t f hk ht
  obtain ⟨u, hu⟩ := exec_answers i { s with flags := f }
  have h : SameInputs i s { s with flags := f } := ⟨fun _ _ => rfl, rfl, rfl, rfl⟩
  exact ⟨u, hu, fun r => exec_reg_alike h ht hu (.inr rfl), exec_pc_alike h rfl (.inr hk) ht hu,
    exec_dataKept_alike h ht hu, exec_programKept_alike h ht hu⟩

/-- Settles O39: a write to a register that is no source leaves an instruction its inputs. -/
theorem registerFieldsHaveTheirRoles : Obligations.RegisterFieldsHaveTheirRoles := by
  refine fun i s t ht => ⟨fun r hr => exec_reg_kept ht hr, fun r v hr => ?_⟩
  obtain ⟨u, hu⟩ := exec_answers i (s.setReg r v)
  have hreg {q : Reg} (hq : q ≠ r) : (s.setReg r v).reg q = s.reg q := State.reg_setReg_other s v hq
  have h : SameInputs i s (s.setReg r v) :=
    ⟨fun q hq => hreg (ne_of_mem_of_not_mem hq hr), rfl, rfl, rfl⟩
  refine ⟨u, hu, fun q hq => ?_, exec_pc_alike h rfl (.inl rfl) ht hu, exec_flags_alike h rfl ht hu,
    exec_dataKept_alike h ht hu, exec_programKept_alike h ht hu⟩
  by_cases hqr : q = r
  · subst hqr
    exact exec_reg_alike h ht hu (.inl (hq.resolve_left (absurd rfl)))
  · exact exec_reg_alike h ht hu (.inr (hreg hqr))

/-- A register that no instruction of a sequence writes is kept through it. -/
theorem execAll_reg_kept {r : Reg} (is : List Instr) (s : State) (his : ∀ i ∈ is, destination i ≠ some r) :
    ∃ u, execAll is s = .next u ∧ u.reg r = s.reg r := by
  induction is generalizing s with
  | nil => exact ⟨s, rfl, rfl⟩
  | cons i rest ih =>
    obtain ⟨hi, hrest⟩ := List.forall_mem_cons.mp his
    obtain ⟨t, ht⟩ := exec_answers i s
    obtain ⟨u, hu, hur⟩ := ih t hrest
    exact ⟨u, by rw [execAll, ht]; exact hu, hur.trans (exec_reg_kept ht hi)⟩

/-- The sign extension of 8 bits to a word changes nothing (30_encoding.md R67). -/
@[simp] theorem slit8_eq (imm : BitVec 8) : slit8 imm = imm :=
  BitVec.signExtend_eq imm

/-- Settles O40: the LI writes the value, and `execAll_reg_kept` keeps it. -/
theorem everyRegisterHoldsWhatWasLastWritten : Obligations.EveryRegisterHoldsWhatWasLastWritten := by
  intro r v is s his
  obtain ⟨u, hu, hur⟩ := execAll_reg_kept is (s.setReg r (slit8 v)).advance his
  exact ⟨_, u, exec_li .., hu, by simp [hur]⟩

end Sys2Proof.Machine
end

section
/-! The adder of 10_state.md R30 as an addition and as a subtraction, and the conditions that do not read C. -/

namespace Sys2Proof.Machine

theorem addFlags_sum (a b : Word) : (addFlags a b false).1 = a + b := by
  apply BitVec.eq_of_toNat_eq
  simp [addFlags_toNat]

theorem addFlags_sumFlags (a b : Word) : SumFlags a b (addFlags a b false).2 := by
  obtain ⟨-, hc, hn, hz, hov⟩ := addFlags_spec a b false
  simp only [addFlags_sum, Bool.toNat_false, add_zero, Nat.cast_zero] at hc hn hz hov
  exact ⟨hc, hn, hz, hov⟩

/-- The adder's second operand in a subtraction: the complement, `255 - b` (R30). -/
theorem toNat_not_word (b : Word) : (~~~b).toNat = 255 - b.toNat :=
  BitVec.toNat_not

theorem toInt_not_word (b : Word) : (~~~b).toInt = -b.toInt - 1 := by
  have hb := b.isLt
  rw [word_toInt, word_toInt, toNat_not_word]
  split_ifs <;> omega

theorem addFlags_difference (a b : Word) : (addFlags a (~~~b) true).1 = a - b := by
  apply BitVec.eq_of_toNat_eq
  rw [addFlags_toNat, toNat_not_word, BitVec.toNat_sub, Bool.toNat_true]
  omega

/-- The carry out of `a + ~b + 1` says that there was no borrow (R30). -/
theorem addFlags_not_c (a b : Word) : (addFlags a (~~~b) true).2.c = decide (b.toNat ≤ a.toNat) := by
  rw [addFlags_c, toNat_not_word, Bool.toNat_true, decide_eq_decide]
  omega

theorem subFlags_differenceFlags (p : SubCarry) (a b : Word) : DifferenceFlags p a b (subFlags p a b).2 := by
  obtain ⟨-, -, hn, hz, hov⟩ := addFlags_spec a (~~~b) true
  rw [addFlags_difference] at hn hz
  rw [subFlags_snd, addFlags_not_c]
  refine ⟨?_, ?_, hn, ?_, ?_⟩
  · rintro rfl
    rfl
  · rintro rfl
    simp [subCarryFlag, ← decide_not]
  · rw [hz, decide_eq_decide]
    exact sub_eq_zero
  · have hexact : a.toInt + (~~~b).toInt + (true.toNat : Int) = a.toInt - b.toInt := by
      rw [toInt_not_word, Bool.toNat_true]
      omega
    rw [hov, hexact]

theorem condition_signed_with_c {p : Params} (hmode : p.cmpMode = .signed) (k : Cond) (f : Flags) (c : Bool) :
    condition p k { f with c := c } = condition p k f := by
  cases k <;> simp [condition, lessThan, hmode]

/-- Settles O16: the adder's flags as a sum and as a difference, and signed conditions that do not read C. -/
theorem adderFlagsMeanWhatR30Says : Obligations.AdderFlagsMeanWhatR30Says := by
  intro a b
  refine ⟨⟨addFlags_sum a b, addFlags_sumFlags a b⟩, ⟨addFlags_difference a b, subFlags_differenceFlags .carry a b⟩,
    fun p => ⟨addFlags_difference a b, subFlags_differenceFlags p a b⟩,
    fun old r => ⟨word_bit7_neg r, rfl, rfl, rfl⟩, fun k v a s x y c hmode hx hy => ?_⟩
  rw [exec_branchInstr_pc hx, exec_branchInstr_pc hy, condition_signed_with_c hmode]

end Sys2Proof.Machine
end

section
/-! The rules of 20_memory.md: what an instruction can do to the two memories, and what a later load sees of a store. -/

namespace Sys2Proof.Machine

section Memories

variable {i : Instr} {s t u : State} {a : Addr}

/-! ### One instruction -/

/-- Data memory after an instruction: as before, or with one word written at the address it stores to (R48, R51). -/
theorem exec_dmem_cases (ht : exec i s = .next t) :
    (storesTo i = none ∧ t.dmem = s.dmem) ∨
      ∃ a v, storesTo i = some a ∧ t.dmem = Memory.write s.dmem a.toNat v := by
  obtain ⟨v, f, hw, -⟩ := exec_writes (SameInputs.refl i s) ht ht
  have hdmem := hw.dmem
  cases hstore : storesTo i with
  | none => exact .inl ⟨rfl, by simpa [hstore] using hdmem⟩
  | some a => exact .inr ⟨a, v, rfl, by simpa [hstore] using hdmem⟩

/-- No instruction writes the program (R55) or the parameters. -/
theorem exec_imem_params (ht : exec i s = .next t) : t.imem = s.imem ∧ t.params = s.params := by
  obtain ⟨v, f, hw, -⟩ := exec_writes (SameInputs.refl i s) ht ht
  exact ⟨hw.imem, hw.params⟩

theorem exec_read?_kept (ht : exec i s = .next t) {b : Nat} (hb : ∀ a, storesTo i = some a → a.toNat ≠ b) :
    Memory.read? t.dmem b = Memory.read? s.dmem b := by
  rcases exec_dmem_cases ht with ⟨-, hdmem⟩ | ⟨a, v, hstore, hdmem⟩
  · rw [hdmem]
  · rw [hdmem, Memory.read?_write_other _ _ (hb a hstore).symm]

theorem exec_dataCell_kept (ht : exec i s = .next t) (ha : storesTo i ≠ some a) : t.dataCell a = s.dataCell a :=
  exec_read?_kept ht fun _ hstore hb => ha (hstore.trans (congrArg some (BitVec.eq_of_toNat_eq hb)))

theorem exec_keeps_inv (hs : s.Inv) (ht : exec i s = .next t) : t.Inv := by
  obtain ⟨hdata, hprogram⟩ := hs
  refine ⟨?_, (exec_imem_params ht).1 ▸ hprogram⟩
  rcases exec_dmem_cases ht with ⟨-, hdmem⟩ | ⟨a, v, -, hdmem⟩
  · rw [hdmem]
    exact hdata
  · rw [hdmem]
    exact Memory.wf_write s.dmem a v hdata

theorem exec_lwi_loads (rd : Reg) (a : Addr) (s : State) : ∃ t, exec (.lwi rd a) s = .next t ∧ t.reg rd = s.load a :=
  ⟨_, exec_lwi .., by simp⟩

/-! ### A sequence of instructions -/

/-- A data cell that no instruction of a sequence stores to is kept through it, a cell never written among them. -/
theorem execAll_dataCell_kept {is : List Instr} (his : ∀ i ∈ is, storesTo i ≠ some a) (hu : execAll is s = .next u) :
    u.dataCell a = s.dataCell a := by
  induction is generalizing s with
  | nil =>
    cases hu
    rfl
  | cons i rest ih =>
    obtain ⟨hi, hrest⟩ := List.forall_mem_cons.mp his
    obtain ⟨t, ht⟩ := exec_answers i s
    rw [execAll, ht] at hu
    exact (ih hrest hu).trans (exec_dataCell_kept ht hi)

theorem execAll_load_kept {is : List Instr} (his : ∀ i ∈ is, storesTo i ≠ some a) (hu : execAll is s = .next u) :
    u.load a = s.load a :=
  State.load_congr (execAll_dataCell_kept his hu)

/-- A load after such a sequence answers what a load before it would have. -/
theorem exec_lwi_after {is : List Instr} (his : ∀ i ∈ is, storesTo i ≠ some a) (hu : execAll is s = .next u) (rd : Reg) :
    ∃ v, exec (.lwi rd a) u = .next v ∧ v.reg rd = s.load a :=
  execAll_load_kept his hu ▸ exec_lwi_loads rd a u

end Memories

/-- Settles O43: a step that answers executes one instruction, which writes data memory at an 8-bit address or not at all. -/
theorem stepKeepsTheMemoriesCanonical : Obligations.StepKeepsTheMemoriesCanonical := by
  intro s t hs ht
  obtain ⟨-, i, -, -, hexec⟩ := step_next ht
  exact exec_keeps_inv hs hexec

/-- Settles O14: the cell holds the stored value, or the launch value, where the sequence begins, and `exec_lwi_after` loads it. -/
theorem loadReturnsTheLatestStore : Obligations.LoadReturnsTheLatestStore := by
  refine fun rs rd a is s t u his => ⟨fun ht hu => ?_, fun x hx hu => ?_⟩
  · cases ht
    have hcell : (s.store a (s.reg rs)).advance.dataCell a = some (s.reg rs) := by
      rw [State.dataCell, State.advance_dmem, State.store_dmem, Memory.read?_write_same]
    exact State.load_of_dataCell _ hcell ▸ exec_lwi_after his hu rd
  · exact State.load_of_dataCell s hx ▸ exec_lwi_after his hu rd

/-- Settles O15: an LWI stores nothing, so that both loads see the cell as it was before the first. -/
theorem repeatedLoadsAgree : Obligations.RepeatedLoadsAgree := by
  intro r q a is s t u his ht hu
  obtain ⟨v, hv, hvq⟩ := exec_lwi_after his hu q
  obtain ⟨t', ht', htr⟩ := exec_lwi_loads r a s
  cases ht'.symm.trans ht
  have hload : t.load a = s.load a := State.load_congr (exec_dataCell_kept ht nofun)
  exact ⟨v, hv, hvq.trans (hload.trans htr.symm)⟩

/-- Settles O41: `exec_imem_params` for the program and the parameters, `exec_read?_kept` for the data cells. -/
theorem onlySwiChangesMemory : Obligations.OnlySwiChangesMemory := by
  intro i s t ht
  obtain ⟨himem, hparams⟩ := exec_imem_params ht
  exact ⟨⟨fun a => by rw [himem], hparams⟩, fun b hb => exec_read?_kept ht hb⟩

end Sys2Proof.Machine
end

section
/-! The decoder and the encoder as inverses, the words that spell no instruction, and the unused bits (30_encoding.md R71 to R73). -/

namespace Sys2Proof.Machine

/-! ### Decoding what the encoder built -/

/-- The decoder reads every instruction back from its word, the unused bits among it (R71; log 10). -/
@[simp] theorem decodeWord_encode (i : Instr) : decodeWord (encode i) = .instr i := by
  cases i with
  | add | sub | and | or | xor | nand | nor | xnor | cp => simp [encode, decodeWord, decodeR]
  | li | lwi | swi | addi | subi | b | cpi | beq | bneq | blt | blet | bgt | bget | nop => simp [encode, decodeWord]

/-- The check of the unused bits is all that `STRICT_UNUSED` adds (R72). -/
theorem decode_encode (strict : Bool) (i : Instr) :
    decode strict (encode i) = if i.wellFormed strict then .instr i else .invalid .unusedBitsSet := by
  simp only [decode, decodeWord_encode]

theorem decodeWord_of_decode {strict : Bool} {w : InstrWord} {i : Instr} (h : decode strict w = .instr i) :
    decodeWord w = .instr i := by
  unfold decode at h
  split at h
  · next hw =>
    split at h
    · exact hw.trans h
    · cases h
  · cases h

theorem decode_of_decodeWord_invalid {w : InstrWord} {why : Reject} (h : decodeWord w = .invalid why) (strict : Bool) :
    decode strict w = .invalid why := by
  simp only [decode, h]

/-- With the unused bits ignored, the decoder's verdict is that on the word as it stands. -/
theorem decode_false (w : InstrWord) : decode false w = decodeWord w := by
  unfold decode
  cases decodeWord w <;> rfl

/-- An instruction whose unused bits are `u` is read back from its word, unless they are refused (R72). -/
theorem decodesUnused_encode {n : Nat} {u : BitVec n} {i : Instr} (h : i.unusedZero = (u == 0)) :
    DecodesUnused u (encode i) i := by
  simp [DecodesUnused, decode_encode, Instr.wellFormed, h]

/-! ### Encoding what the decoder read -/

/-- The unassigned words by their fields (R73). -/
theorem unassigned_iff (w : InstrWord) :
    Unassigned w ↔
      15 ≤ (opcodeField w).toNat ∨ (opcodeField w).toNat = 0 ∧ 9 ≤ (functionField w).toNat := by
  have hw := w.isLt
  simp only [Unassigned, opcodeField, functionField, BitVec.extractLsb'_toNat, Nat.shiftRight_eq_div_pow]
  omega

/-- What a verdict says of the word it is given for: an instruction is one whose encoding is the word, and the words without one are
the unassigned ones (R71, R73). -/
def VerdictFits (w : InstrWord) : Verdict → Prop
  | .instr i => encode i = w ∧ ¬ Unassigned w
  | .invalid _ => Unassigned w

section Fits

variable {w : InstrWord}

theorem encode8_of_opcode {op : BitVec 5} (h : (opcodeField w).toNat = op.toNat) :
    encode8 op (bits98 w) (imm8Field w) = w := by
  rw [← BitVec.eq_of_toNat_eq h, encode8_fields]

theorem encode6_of_opcode {op : BitVec 5} (h : (opcodeField w).toNat = op.toNat) :
    encode6 op (rdField w) (rs1Field w) (imm6Field w) = w := by
  rw [← BitVec.eq_of_toNat_eq h, encode6_fields]

theorem encodeR_of_function {fn : BitVec 4} (hop : (opcodeField w).toNat = 0)
    (h : (functionField w).toNat = fn.toNat) : encodeR (bits98 w) (rs1Field w) (rs2Field w) fn = w := by
  rw [← BitVec.eq_of_toNat_eq h, encodeR_fields w (BitVec.eq_of_toNat_eq hop)]

/-- Layout R: each assigned FUNCTION is encoded as it was read, and 9..15 are left over (R69, R73). -/
theorem decodeR_fits (hop : (opcodeField w).toNat = 0) : VerdictFits w (decodeR w) := by
  unfold decodeR
  split
  case h_1 h | h_2 h | h_3 h | h_4 h | h_5 h | h_6 h | h_7 h | h_8 h =>
    rw [VerdictFits, encode, toField_rdField, unassigned_iff]
    exact ⟨encodeR_of_function hop h, by omega⟩
  case h_9 h => exact ⟨encodeR_of_function hop h, by rw [unassigned_iff]; omega⟩
  case h_10 =>
    simp only [VerdictFits, unassigned_iff, imp_false] at *
    omega

/-- Each assigned OPCODE is encoded as it was read, and 15..31 are left over (R68, R73). -/
theorem decodeWord_fits (w : InstrWord) : VerdictFits w (decodeWord w) := by
  unfold decodeWord
  split
  case h_1 h => exact decodeR_fits h
  case h_5 h | h_6 h => exact ⟨encode6_of_opcode h, by rw [unassigned_iff]; omega⟩
  case h_2 h | h_3 h | h_4 h | h_8 h =>
    rw [VerdictFits, encode, toField_rdField, unassigned_iff]
    exact ⟨encode8_of_opcode h, by omega⟩
  case h_7 h | h_9 h | h_10 h | h_11 h | h_12 h | h_13 h | h_14 h =>
    exact ⟨encode8_of_opcode h, by rw [unassigned_iff]; omega⟩
  case h_15 h =>
    refine ⟨?_, by rw [unassigned_iff]; omega⟩
    rw [encode, ← BitVec.eq_of_toNat_eq (y := 0b01110#5) h, nop_fields]
  case h_16 =>
    simp only [VerdictFits, unassigned_iff, imp_false] at *
    omega

theorem encode_of_decodeWord {i : Instr} (h : decodeWord w = .instr i) : encode i = w := by
  have hfits := decodeWord_fits w
  rw [h] at hfits
  exact hfits.1

theorem decodeWord_invalid_iff : (∃ why, decodeWord w = .invalid why) ↔ Unassigned w := by
  have hfits := decodeWord_fits w
  cases hw : decodeWord w <;> rw [hw] at hfits
  · exact iff_of_false (by simp) hfits.2
  · exact iff_of_true ⟨_, rfl⟩ hfits

end Fits

/-! ### A fetched word that decodes to no instruction -/

section Refused

variable {s : State} {w : InstrWord} {why : Reject}

theorem step_eq_refused (hfetch : s.fetch = some w) (hdecode : decode s.params.strictUnused w = .invalid why) :
    step s = .refused (.illegalWord why) := by
  simp only [step, hfetch, hdecode]

theorem isFinal_of_invalid (hfetch : s.fetch = some w) (hdecode : decode s.params.strictUnused w = .invalid why) :
    s.isFinal = false := by
  simp only [State.isFinal, hfetch, hdecode]

end Refused

/-- Settles O7: `decode_encode`, in its first branch. -/
theorem decodeInvertsEncode : Obligations.DecodeInvertsEncode := by
  intro strict i hwf
  rw [decode_encode, if_pos hwf]

/-- Settles O8: the strict check only rejects, so that the instruction is the one `decodeWord` reads, whose encoding is the word. -/
theorem encodeInvertsDecode : Obligations.EncodeInvertsDecode :=
  fun _ _ _ h => encode_of_decodeWord (decodeWord_of_decode h)

/-- Settles O9: a word that `decodeWord` rejects is rejected under either `STRICT_UNUSED`. -/
theorem unassignedWordsAreRefused : Obligations.UnassignedWordsAreRefused := by
  refine ⟨fun w => decode_false w ▸ decodeWord_invalid_iff, fun s w hword hw => ?_⟩
  obtain ⟨why, hwhy⟩ := decodeWord_invalid_iff.mpr hw
  have hdecode := decode_of_decodeWord_invalid hwhy s.params.strictUnused
  exact ⟨isFinal_of_invalid hword hdecode, why, step_eq_refused hword hdecode⟩

/-- Settles O10: each word is the encoding of its instruction, and no meaning takes the unused bits. -/
theorem unusedBitsAreIgnoredUnlessStrict : Obligations.UnusedBitsAreIgnoredUnlessStrict := by
  refine ⟨fun u rs1 rs2 => ⟨decodesUnused_encode (i := .cp u rs1 rs2) rfl, fun _ _ => rfl⟩,
    fun u a => ⟨decodesUnused_encode (i := .b u a) rfl, fun _ _ => rfl⟩, fun k u a => ⟨?_, fun v s => ?_⟩,
    fun u => ⟨decodesUnused_encode (i := .nop u) rfl, fun _ _ => rfl⟩,
    fun s w hstrict hword hdecode => step_eq_refused hword (hstrict ▸ hdecode)⟩
  · have hword : branchOpcode k ++ u ++ a = encode (branchInstr k u a) := by cases k <;> rfl
    exact hword ▸ decodesUnused_encode (by cases k <;> rfl)
  · rw [exec_branchInstr, exec_branchInstr]

/-- Settles O6: the decoder is run on each of the twelve words. -/
theorem familyWordsDecode : Obligations.FamilyWordsDecode := by
  unfold Obligations.FamilyWordsDecode
  decide

end Sys2Proof.Machine
end

section
/-! The instructions of 40_load_store.md: the encoding, the completion and the frame of each. -/

namespace Sys2Proof.Machine

/-- An instruction without unused bits, or with zeros in them, is read back from its word under either `STRICT_UNUSED` (R71, R72). -/
theorem decodes_encode {i : Instr} (h : i.unusedZero = true) : Decodes (encode i) i := by
  intro strict
  rw [decode_encode, if_pos (by simp [Instr.wellFormed, h])]

/-- From `s` to `t` the register `rd` receives `v` and nothing else changes but the pc, which is the next address. -/
structure LoadsRegister (rd : Reg) (v : Word) (s t : State) : Prop where
  reg : t.reg rd = v
  regs : RegsKeptBut rd s t
  flags : t.flags = s.flags
  pc : PcAdvanced s t
  data : DataKept s t
  program : ProgramKept s t

theorem loadsRegister_setReg_advance (rd : Reg) (v : Word) (s : State) : LoadsRegister rd v s (s.setReg rd v).advance where
  reg := s.reg_setReg_same rd v
  regs _ hr := s.reg_setReg_other v hr
  flags := rfl
  pc := pcAdvanced_of_eq rfl
  data _ := rfl
  program := ⟨fun _ => rfl, rfl⟩

/-- Settles O11: the constant is loaded unchanged, since its sign extension to a word is itself (`slit8_eq`). -/
theorem liLoadsItsConstant : Obligations.LiLoadsItsConstant := by
  refine fun rd imm s => ⟨decodes_encode (i := .li rd imm) rfl, _, exec_li .., ?_⟩
  obtain ⟨hreg, hregs, hflags, hpc, hdata, hprogram⟩ := loadsRegister_setReg_advance rd (slit8 imm) s
  exact ⟨hreg.trans (slit8_eq imm), hregs, hflags, hpc, hdata, hprogram⟩

/-- Settles O12: the loaded value is `State.load`, which is the content of a defined cell. -/
theorem lwiLoadsTheAddressedWord : Obligations.LwiLoadsTheAddressedWord := by
  refine fun rd a s => ⟨decodes_encode (i := .lwi rd a) rfl, _, exec_lwi .., ?_⟩
  obtain ⟨hreg, hregs, hflags, hpc, hdata, hprogram⟩ := loadsRegister_setReg_advance rd (s.load a) s
  exact ⟨fun v hv => hreg.trans (s.load_of_dataCell hv), hregs, hflags, hpc, hdata, hprogram⟩

/-- Settles O13: one cell is written, so that a read of it gives the register and a read of another what it gave before. -/
theorem swiStoresTheRegister : Obligations.SwiStoresTheRegister := by
  refine fun rd a s => ⟨decodes_encode (i := .swi rd a) rfl, _, exec_swi .., ?_, fun b hb => ?_, fun _ => rfl, rfl,
    pcAdvanced_of_eq rfl, fun _ => rfl, rfl⟩
  · exact Memory.read?_write_same s.dmem a.toNat (s.reg rd)
  · exact Memory.read?_write_other s.dmem (s.reg rd) hb

end Sys2Proof.Machine
end

section
/-! The instructions of 41_arithmetic.md: what the four share, ADDI of a constant against SUBI of its opposite, and the setting of
`ARITH_WRITES_FLAGS`. -/

namespace Sys2Proof.Machine

theorem State.finishArithmetic_flags {s : State} (hon : s.params.arithWritesFlags = true) (rd : Reg) (out : Word × Flags) :
    (s.finishArithmetic rd out).flags = out.2 :=
  if_pos hon

/-- An arithmetic instruction whose result is `r`, and whose flags are as `F` says, writes these and keeps the rest (R110, R116). -/
theorem State.finishArithmetic_writes (s : State) (rd : Reg) {out : Word × Flags} {r : Word} (F : Flags → Prop)
    (hresult : out.1 = r) (hflags : F out.2) :
    let t := s.finishArithmetic rd out
    t.reg rd = r ∧ RegsKeptBut rd s t ∧ (s.params.arithWritesFlags = true → F t.flags) ∧
      (s.params.arithWritesFlags = false → t.flags = s.flags) ∧ PcAdvanced s t ∧ DataKept s t ∧ ProgramKept s t := by
  obtain ⟨hreg, hkept, hpc, hdmem, himem, hparams⟩ := s.finishArithmetic_spec rd out
  refine ⟨?_, fun q hq => ?_, fun hon => ?_, fun hoff => ?_, pcAdvanced_of_eq hpc, fun a => by rw [hdmem],
    fun a => by rw [himem], hparams⟩
  · rw [hreg, if_pos rfl, hresult]
  · rw [hreg, if_neg hq]
  · exact (State.finishArithmetic_flags hon rd out).symm ▸ hflags
  · simp [hkept, hoff]

/-- Settles O17: the adder without a carry in is the addition (`addFlags_sum`, `addFlags_sumFlags`). -/
theorem addWritesTheSumAndItsFlags : Obligations.AddWritesTheSumAndItsFlags := by
  refine fun rd rs1 rs2 s => ⟨decodes_encode (i := .add rd rs1 rs2) rfl, _, exec_add .., ?_⟩
  obtain ⟨hreg, hrest⟩ := s.finishArithmetic_writes rd (SumFlags (s.reg rs1) (s.reg rs2)) (addFlags_sum ..)
    (addFlags_sumFlags ..)
  exact ⟨hreg ▸ BitVec.toNat_add .., hrest⟩

/-- Settles O18: `addFlags_difference` for the result, `subFlags_differenceFlags` for the flags. -/
theorem subWritesTheDifferenceAndItsFlags : Obligations.SubWritesTheDifferenceAndItsFlags :=
  fun rd rs1 rs2 s => ⟨decodes_encode (i := .sub rd rs1 rs2) rfl, _, exec_sub ..,
    s.finishArithmetic_writes rd (DifferenceFlags _ _ _) (addFlags_difference ..) (subFlags_differenceFlags ..)⟩

/-- The 6-bit constant is the word of its signed value (30_encoding.md R67). -/
theorem slit6_eq (imm : BitVec 6) : slit6 imm = BitVec.ofInt 8 imm.toInt := rfl

/-- Settles O20: as SUB, with the constant for the second source (`slit6_eq`). -/
theorem subiSubtractsItsSignedConstant : Obligations.SubiSubtractsItsSignedConstant := by
  refine fun rd rs1 imm s => ⟨decodes_encode (i := .subi rd rs1 imm) rfl, _, exec_subi .., ?_⟩
  rw [← slit6_eq]
  exact s.finishArithmetic_writes rd (DifferenceFlags _ _ _) (addFlags_difference ..) (subFlags_differenceFlags ..)

/-! ### ADDI of the opposite constant (R113) -/

theorem Flags.ext : ∀ {f g : Flags}, f.c = g.c → f.n = g.n → f.z = g.z → f.ov = g.ov → f = g
  | ⟨_, _, _, _⟩, ⟨_, _, _, _⟩, rfl, rfl, rfl, rfl => rfl

/-- Adding the opposite is subtracting, carry and overflow included, but for 0, whose subtraction has a carry out, and for -128,
which has no opposite. -/
theorem addFlags_neg (a : Word) {b : Word} (hzero : b ≠ 0#8) (hmin : b ≠ BitVec.intMin 8) :
    addFlags a (-b) false = subFlags .carry a b := by
  have hsum : a + -b = a - b := (BitVec.sub_eq_add_neg a b).symm
  obtain ⟨hc, hn, hz, hov⟩ := addFlags_sumFlags a (-b)
  obtain ⟨hc', -, hn', hz', hov'⟩ := subFlags_differenceFlags .carry a b
  refine Prod.ext ?_ (Flags.ext ?_ ?_ ?_ ?_)
  · rw [addFlags_sum, subFlags_fst, addFlags_difference, hsum]
  · have hb : b.toNat ≠ 0 := fun h => hzero (BitVec.eq_of_toNat_eq h)
    have hneg : (-b).toNat = 256 - b.toNat := by
      rw [BitVec.toNat_neg]
      omega
    rw [hc, hc' rfl, hneg, decide_eq_decide]
    omega
  · rw [hn, hn', hsum]
  · rw [hz, hz', hsum, decide_eq_decide]
    exact sub_eq_zero
  · rw [hov, hov', BitVec.toInt_neg_of_ne_intMin hmin, ← Int.sub_eq_add_neg]

@[simp] theorem slit6_zero : slit6 0 = 0#8 := rfl

theorem slit6_neg {k : BitVec 6} (hmin : k ≠ BitVec.intMin 6) : slit6 (-k) = -slit6 k := by
  rw [slit6_eq, slit6_eq, BitVec.toInt_neg_of_ne_intMin hmin, BitVec.ofInt_neg]

/-- A constant whose sign bit is clear keeps its value. -/
theorem toNat_slit6 {k : BitVec 6} (hk : k.toNat ≤ 31) : (slit6 k).toNat = k.toNat := by
  have hmsb : k.msb = false := by
    rw [BitVec.msb_eq_decide, decide_eq_false_iff_not]
    omega
  rw [slit6, BitVec.signExtend_eq_setWidth_of_msb_false hmsb, BitVec.toNat_setWidth]
  omega

theorem exec_addi_neg (rd rs1 : Reg) {s : State} {k : BitVec 6} (hcarry : s.params.subCarry = .carry) (hpos : 1 ≤ k.toNat)
    (hle : k.toNat ≤ 31) : exec (.addi rd rs1 (-k)) s = exec (.subi rd rs1 k) s := by
  have hvalue := toNat_slit6 hle
  have hmin : k ≠ BitVec.intMin 6 := ne_of_apply_ne BitVec.toNat <| by
    rw [BitVec.toNat_intMin]
    omega
  have hzero : slit6 k ≠ 0#8 := ne_of_apply_ne BitVec.toNat <| by
    rw [hvalue, BitVec.toNat_zero]
    omega
  have hmin8 : slit6 k ≠ BitVec.intMin 8 := ne_of_apply_ne BitVec.toNat <| by
    rw [hvalue, BitVec.toNat_intMin]
    omega
  rw [exec_addi, exec_subi, hcarry, slit6_neg hmin, addFlags_neg _ hzero hmin8]

/-- Adding 0 has no carry out. -/
theorem addFlags_zero_c (a : Word) : (addFlags a 0#8 false).2.c = false := by
  have ha := a.isLt
  rw [(addFlags_sumFlags a 0#8).1, BitVec.toNat_zero, decide_eq_false_iff_not]
  omega

/-- Subtracting 0 has a carry out, for it needs no borrow. -/
theorem subFlags_zero_c (a : Word) : (subFlags .carry a 0#8).2.c = true := by
  rw [(subFlags_differenceFlags .carry a 0#8).1 rfl, BitVec.toNat_zero, decide_eq_true_eq]
  exact Nat.zero_le _

/-- Settles O19: as ADD, with the constant for the second source; `exec_addi_neg` for the opposite constants; at 0 the two
carries of `addFlags_zero_c` and `subFlags_zero_c`. -/
theorem addiAddsItsSignedConstant : Obligations.AddiAddsItsSignedConstant := by
  refine ⟨fun rd rs1 imm s => ⟨decodes_encode (i := .addi rd rs1 imm) rfl, _, exec_addi .., ?_⟩,
    fun rd rs1 s hcarry => ⟨fun k => exec_addi_neg rd rs1 hcarry, fun hon t u ht hu => ⟨?_, ?_⟩⟩⟩
  · rw [← slit6_eq]
    exact s.finishArithmetic_writes rd (SumFlags _ _) (addFlags_sum ..) (addFlags_sumFlags ..)
  · cases ht
    rw [State.finishArithmetic_flags hon, slit6_zero, addFlags_zero_c]
  · cases hu
    rw [State.finishArithmetic_flags hon, hcarry, slit6_zero, subFlags_zero_c]

/-! ### The setting of `ARITH_WRITES_FLAGS` (R116) -/

/-- Under either setting an arithmetic instruction finishes with the same register and the same output of the adder. -/
theorem exec_arithmetic_either_setting {i : Instr} (hcol : flagsColumn i = .arithmetic) (s : State) :
    ∃ rd out, ∀ on, exec i { s with params := { s.params with arithWritesFlags := on } }
      = .next (State.finishArithmetic { s with params := { s.params with arithWritesFlags := on } } rd out) := by
  cases i with
  | add rd rs1 rs2 => exact ⟨rd, addFlags (s.reg rs1) (s.reg rs2) false, fun _ => rfl⟩
  | sub rd rs1 rs2 => exact ⟨rd, subFlags s.params.subCarry (s.reg rs1) (s.reg rs2), fun _ => rfl⟩
  | addi rd rs1 imm => exact ⟨rd, addFlags (s.reg rs1) (slit6 imm) false, fun _ => rfl⟩
  | subi rd rs1 imm => exact ⟨rd, subFlags s.params.subCarry (s.reg rs1) (slit6 imm), fun _ => rfl⟩
  | _ => cases hcol

/-- Settles O21: the two settings share the register and the adder's output, and differ in the flags and the setting alone. -/
theorem flagSettingLeavesArithmeticResultsAlone : Obligations.FlagSettingLeavesArithmeticResultsAlone := by
  intro i s hcol
  obtain ⟨rd, out, hexec⟩ := exec_arithmetic_either_setting hcol s
  exact ⟨_, _, hexec true, hexec false, fun _ => rfl, rfl, fun _ => rfl, fun _ => rfl, rfl⟩

end Sys2Proof.Machine
end

section
/-! The instructions of 42_logic.md: what the six share, and the bitwise function of each. -/

namespace Sys2Proof.Machine

/-- A logic instruction whose result is `v` writes it with N and Z of it, as the setting says, and keeps the rest (R120). -/
theorem State.finishLogic_writes (s : State) (rd : Reg) (v : Word) :
    let t := s.finishLogic rd v
    t.reg rd = v ∧ RegsKeptBut rd s t ∧
      (s.params.arithWritesFlags = true →
        t.flags.n = (t.reg rd).getLsbD 7 ∧ t.flags.z = decide (t.reg rd = 0) ∧
        t.flags.c = s.flags.c ∧ t.flags.ov = s.flags.ov) ∧
      (s.params.arithWritesFlags = false → t.flags = s.flags) ∧ PcAdvanced s t ∧ DataKept s t ∧ ProgramKept s t := by
  obtain ⟨hreg, hflags, hpc, hdmem, himem, hparams⟩ := s.finishLogic_spec rd v
  have hrd : (s.finishLogic rd v).reg rd = v := by rw [hreg, if_pos rfl]
  refine ⟨hrd, fun q hq => ?_, fun hon => ?_, fun hoff => ?_, pcAdvanced_of_eq hpc, fun a => by rw [hdmem],
    fun a => by rw [himem], hparams⟩
  · rw [hreg, if_neg hq]
  · rw [hflags, if_pos hon, hrd]
    exact ⟨rfl, rfl, rfl, rfl⟩
  · simp [hflags, hoff]

theorem getLsbD_not_word {k : Nat} (hk : k < 8) (v : Word) : (~~~v).getLsbD k = !v.getLsbD k := by
  rw [BitVec.getLsbD_not, decide_eq_true hk, Bool.true_and]

/-- Settles O22: each of the six finishes with a word whose bits are those of its function (R121 to R126), and
`State.finishLogic_writes` tells the rest. -/
theorem logicInstructionsWorkBitByBit : Obligations.LogicInstructionsWorkBitByBit := by
  intro rd rs1 rs2 s i fn f hi
  obtain ⟨hdecodes, v, hexec, hbits⟩ : Decodes (0b00000#5 ++ rd.toField ++ rs1.toField ++ rs2.toField ++ fn) i ∧
      ∃ v, exec i s = .next (s.finishLogic rd v) ∧
        ∀ k, k < 8 → v.getLsbD k = f ((s.reg rs1).getLsbD k) ((s.reg rs2).getLsbD k) := by
    simp only [List.mem_cons, Prod.mk.injEq, List.not_mem_nil, or_false] at hi
    obtain ⟨rfl, rfl, rfl⟩ | ⟨rfl, rfl, rfl⟩ | ⟨rfl, rfl, rfl⟩ | ⟨rfl, rfl, rfl⟩ | ⟨rfl, rfl, rfl⟩ | ⟨rfl, rfl, rfl⟩ := hi
    · exact ⟨decodes_encode (i := .and rd rs1 rs2) rfl, _, exec_and .., fun k _ => BitVec.getLsbD_and⟩
    · exact ⟨decodes_encode (i := .or rd rs1 rs2) rfl, _, exec_or .., fun k _ => BitVec.getLsbD_or⟩
    · exact ⟨decodes_encode (i := .xor rd rs1 rs2) rfl, _, exec_xor .., fun k _ => BitVec.getLsbD_xor⟩
    · refine ⟨decodes_encode (i := .nand rd rs1 rs2) rfl, _, exec_nand .., fun k hk => ?_⟩
      rw [getLsbD_not_word hk, BitVec.getLsbD_and]
    · refine ⟨decodes_encode (i := .nor rd rs1 rs2) rfl, _, exec_nor .., fun k hk => ?_⟩
      rw [getLsbD_not_word hk, BitVec.getLsbD_or]
    · refine ⟨decodes_encode (i := .xnor rd rs1 rs2) rfl, _, exec_xnor .., fun k hk => ?_⟩
      rw [getLsbD_not_word hk, BitVec.getLsbD_xor, ← Bool.bne_eq_xor, bne, Bool.not_not]
  obtain ⟨hreg, hrest⟩ := s.finishLogic_writes rd v
  exact ⟨hdecodes, _, hexec, fun k hk => hreg.symm ▸ hbits k hk, hrest⟩

end Sys2Proof.Machine
end

section
/-! The instruction of 43_jump.md: its word, its target and its frame. -/

namespace Sys2Proof.Machine

/-- A jump writes the pc alone, so one to the address the pc already holds writes nothing new (R130). -/
@[simp] theorem State.jump_self (s : State) : s.jump s.pc = s := rfl

/-- Settles O23: a B is a jump to its constant (`exec_b`), which keeps every field but the pc; `State.jump_self` where the
constant is the pc. -/
theorem bJumpsToItsTarget : Obligations.BJumpsToItsTarget := by
  refine fun u a s => ⟨decodesUnused_encode (i := .b u a) rfl, ⟨s.jump a, exec_b .., ?_⟩, fun hself => ?_⟩
  · exact ⟨s.jump_pc a, s.jump_reg a, s.jump_flags a, fun _ => rfl, fun _ => rfl, s.jump_params a⟩
  · rw [exec_b, hself, State.jump_self]

end Sys2Proof.Machine
end

section
/-! The instructions of 44_compare.md: what the two share, and the flags of CP against those of SUB. -/

namespace Sys2Proof.Machine

/-- A comparison writes the flags of the difference of its operands, whatever `ARITH_WRITES_FLAGS` is, and keeps the rest (R140). -/
theorem State.finishCompare_writes (s : State) (a b : Word) :
    let t := s.finishCompare a b
    DifferenceFlags s.params.subCarry a b t.flags ∧ RegsKept s t ∧ PcAdvanced s t ∧ DataKept s t ∧ ProgramKept s t := by
  obtain ⟨hflags, hregs, hpc, hdmem, himem, hparams⟩ := s.finishCompare_spec a b
  refine ⟨?_, fun r => ?_, pcAdvanced_of_eq hpc, fun c => by rw [hdmem], fun c => by rw [himem], hparams⟩
  · rw [hflags]
    exact subFlags_differenceFlags ..
  · rw [State.reg, hregs, State.reg]

/-- A SUB that writes its flags writes those of the comparison of its sources (R141). -/
theorem exec_sub_flags_eq_finishCompare {rd rs1 rs2 : Reg} {s v : State} (hon : s.params.arithWritesFlags = true)
    (hv : exec (.sub rd rs1 rs2) s = .next v) : v.flags = (s.finishCompare (s.reg rs1) (s.reg rs2)).flags := by
  rw [exec_sub] at hv
  cases hv
  exact State.finishArithmetic_flags hon ..

/-- Settles O25: `State.finishCompare_writes` for the flags and the frame, `exec_sub_flags_eq_finishCompare` for the agreement
with SUB. -/
theorem cpWritesTheFlagsOfTheDifference : Obligations.CpWritesTheFlagsOfTheDifference := by
  refine fun u rs1 rs2 s => ⟨decodesUnused_encode (i := .cp u rs1 rs2) rfl, _, exec_cp .., ?_⟩
  obtain ⟨hflags, hregs, hpc, hdata, hprogram⟩ := s.finishCompare_writes (s.reg rs1) (s.reg rs2)
  exact ⟨hflags, hregs, hpc, hdata, hprogram, fun _ _ => exec_sub_flags_eq_finishCompare⟩

/-- Settles O26: as CP, with the constant, which is its own sign extension to a word (`slit8_eq`), for the second operand. -/
theorem cpiWritesTheFlagsOfTheDifference : Obligations.CpiWritesTheFlagsOfTheDifference := by
  refine fun rd imm s => ⟨decodes_encode (i := .cpi rd imm) rfl, s.finishCompare (s.reg rd) imm, ?_,
    s.finishCompare_writes (s.reg rd) imm⟩
  rw [exec_cpi, slit8_eq]

end Sys2Proof.Machine
end

section
/-! The conditional branches of 45_cond_branch.md: the six conditions follow from EQ and LT alone, so that what a branch decides
after an instruction is told by Z and by "less than" on the flags the instruction left. -/

namespace Sys2Proof.Machine

/-! ### The family laws -/

/-- NEQ, LET, GT and GET follow from EQ and LT as the family laws say (R160). -/
structure CondLaws (holds : Cond → Bool) : Prop where
  neq : holds .NEQ = !holds .EQ
  le : holds .LET = (holds .EQ || holds .LT)
  gt : holds .GT = !holds .LET
  ge : holds .GET = !holds .LT

theorem CondLaws.eq_of_eq_of_lt {f g : Cond → Bool} (hf : CondLaws f) (hg : CondLaws g) (heq : f .EQ = g .EQ)
    (hlt : f .LT = g .LT) (k : Cond) : f k = g k := by
  cases k with
  | EQ => exact heq
  | NEQ => rw [hf.neq, hg.neq, heq]
  | LT => exact hlt
  | LET => rw [hf.le, hg.le, heq, hlt]
  | GT => rw [hf.gt, hg.gt, hf.le, hg.le, heq, hlt]
  | GET => rw [hf.ge, hg.ge, hlt]

/-- Where EQ and LT exclude each other, exactly one of LT, EQ, GT holds. -/
theorem CondLaws.exactlyOne {f : Cond → Bool} (hf : CondLaws f) (hexcl : f .EQ = true → f .LT = false) :
    (f .LT = true ∨ f .EQ = true ∨ f .GT = true) ∧ ¬(f .LT = true ∧ f .EQ = true) ∧
      ¬(f .LT = true ∧ f .GT = true) ∧ ¬(f .EQ = true ∧ f .GT = true) := by
  rw [hf.gt, hf.le]
  cases heq : f .EQ
  · cases f .LT <;> decide
  · rw [hexcl heq]
    decide

theorem condLaws_condition (p : Params) (f : Flags) : CondLaws (condition p · f) :=
  ⟨rfl, rfl, (Bool.not_or ..).symm, rfl⟩

theorem condLaws_signedEquation (f : Flags) : CondLaws (signedEquation · f) where
  neq := by simp [signedEquation]
  le := rfl
  gt := by simp [signedEquation, bne]
  ge := by simp [signedEquation, bne]

theorem condLaws_unsignedEquation (f : Flags) : CondLaws (unsignedEquation · f) where
  neq := by simp [unsignedEquation]
  le := rfl
  gt := by simp [unsignedEquation]
  ge := by simp [unsignedEquation]

theorem condLaws_signedOrder (x y : Word) : CondLaws (signedOrder · x y) where
  neq := decide_not
  le := by simp [signedOrder, Int.le_iff_lt_or_eq, BitVec.toInt_inj, or_comm]
  gt := by simp [signedOrder, ← decide_not]
  ge := by simp [signedOrder, ← decide_not]

theorem condLaws_unsignedOrder (x y : Word) : CondLaws (unsignedOrder · x y) where
  neq := decide_not
  le := by simp [unsignedOrder, Nat.le_iff_lt_or_eq, BitVec.toNat_inj, or_comm]
  gt := by simp [unsignedOrder, ← decide_not]
  ge := by simp [unsignedOrder, ← decide_not]

/-! ### The equations of the two modes -/

section Equations

variable {p : Params} (k : Cond) (f : Flags)

theorem condition_signed (hmode : p.cmpMode = .signed) : condition p k f = signedEquation k f := by
  refine (condLaws_condition p f).eq_of_eq_of_lt (condLaws_signedEquation f) ?_ ?_ k
  · exact (beq_true f.z).symm
  · simp [condition, lessThan, hmode, signedEquation]

theorem condition_unsigned (hmode : p.cmpMode = .unsigned) (hcarry : p.subCarry = .carry) :
    condition p k f = unsignedEquation k f := by
  refine (condLaws_condition p f).eq_of_eq_of_lt (condLaws_unsignedEquation f) ?_ ?_ k
  · exact (beq_true f.z).symm
  · simp [condition, lessThan, hmode, hcarry, subCarryFlag, unsignedEquation]

end Equations

/-- A conditional branch goes by `condition` on the stored flags, and changes the pc alone (R150). -/
theorem branchesOn_condition (k : Cond) (v : BitVec 2) (a : Addr) (s : State) :
    BranchesOn k v a s (condition s.params k s.flags) := by
  obtain ⟨hpc, hregs, hflags, hdmem, himem, hparams⟩ := s.branchOn_spec k a
  refine ⟨_, exec_branchInstr .., fun h => ?_, fun h => pcAdvanced_of_eq ?_, fun r => ?_, hflags, fun b => by rw [hdmem],
    fun b => by rw [himem], hparams⟩
  · rw [hpc, if_pos h]
  · simp [hpc, h]
  · rw [State.reg, hregs, State.reg]

theorem branchesOn_of_condition_eq {k : Cond} {v : BitVec 2} {a : Addr} {s : State} {holds : Bool}
    (h : condition s.params k s.flags = holds) : BranchesOn k v a s holds :=
  h ▸ branchesOn_condition k v a s

/-- Settles O27: the words as in `unusedBitsAreIgnoredUnlessStrict`; the branch goes by `condition`, which is the equation of the
mode in force, and for EQ and NEQ is Z or its complement in both. -/
theorem conditionalBranchesFollowTheStoredFlags : Obligations.ConditionalBranchesFollowTheStoredFlags := by
  intro k u a s
  obtain ⟨-, -, hwords, -⟩ := unusedBitsAreIgnoredUnlessStrict
  refine ⟨(hwords k u a).1, fun hmode => ?_, fun hmode hcarry => ?_, ?_, ?_⟩
  · exact branchesOn_of_condition_eq (condition_signed k s.flags hmode)
  · exact branchesOn_of_condition_eq (condition_unsigned k s.flags hmode hcarry)
  · rintro rfl
    exact branchesOn_of_condition_eq (beq_true s.flags.z).symm
  · rintro rfl
    exact branchesOn_of_condition_eq (beq_false s.flags.z).symm

/-! ### The order a branch decides on the flags of a difference -/

/-- The order of the two operands that a mode's branches decide after a comparison (R151, R152). -/
def modeOrder : CmpMode → Cond → Word → Word → Bool
  | .signed => signedOrder
  | .unsigned => unsignedOrder

theorem condLaws_modeOrder (m : CmpMode) (x y : Word) : CondLaws (modeOrder m · x y) := by
  cases m with
  | signed => exact condLaws_signedOrder x y
  | unsigned => exact condLaws_unsignedOrder x y

@[simp] theorem modeOrder_eq (m : CmpMode) (x y : Word) : modeOrder m .EQ x y = decide (x = y) := by
  cases m <;> rfl

@[simp] theorem modeOrder_lt_self (m : CmpMode) (x : Word) : modeOrder m .LT x x = false := by
  cases m with
  | signed => exact decide_eq_false (lt_irrefl x.toInt)
  | unsigned => exact decide_eq_false (lt_irrefl x.toNat)

theorem word_toInt_bounds (r : Word) : -128 ≤ r.toInt ∧ r.toInt < 128 :=
  ⟨BitVec.le_toInt r, BitVec.toInt_lt⟩

/-- The sign bit of a wrapped result, exclusive or its overflow, is the sign of the exact result `e` (R151). -/
theorem sign_xor_overflow {r : Word} {e : Int} (hr : r.toInt = e.bmod 256) (hlo : -256 ≤ e) (hhi : e < 256) :
    (decide (r.toInt < 0) ^^ decide (e < -128 ∨ 127 < e)) = decide (e < 0) := by
  rw [Bool.eq_iff_iff, Bool.xor_iff_ne, ne_eq, decide_eq_decide, decide_eq_true_eq, hr, Int.bmod]
  split <;> omega

section AfterDifference

variable {x y : Word}

theorem lessThan_of_differenceFlags {p : Params} {f : Flags} (h : DifferenceFlags p.subCarry x y f) :
    lessThan p f = modeOrder p.cmpMode .LT x y := by
  obtain ⟨hcarry, hborrow, hn, -, hov⟩ := h
  cases hmode : p.cmpMode with
  | signed =>
    have hexact : (f.n ^^ f.ov) = decide (x.toInt - y.toInt < 0) := by
      rw [hn, hov]
      have hx := word_toInt_bounds x
      have hy := word_toInt_bounds y
      exact sign_xor_overflow (BitVec.toInt_sub) (by omega) (by omega)
    simp [lessThan, hmode, hexact, modeOrder, signedOrder]
  | unsigned =>
    cases hpol : p.subCarry with
    | carry => simp [lessThan, hmode, hpol, subCarryFlag, hcarry hpol, modeOrder, unsignedOrder, ← decide_not]
    | borrow => simp [lessThan, hmode, hpol, subCarryFlag, hborrow hpol, modeOrder, unsignedOrder]

/-- On the flags of a difference the conditions decide the order of the mode, under either polarity of C (R151, R152; log 8). -/
theorem condition_of_differenceFlags {p : Params} {f : Flags} (h : DifferenceFlags p.subCarry x y f) (k : Cond) :
    condition p k f = modeOrder p.cmpMode k x y := by
  refine (condLaws_condition p f).eq_of_eq_of_lt (condLaws_modeOrder p.cmpMode x y) ?_ (lessThan_of_differenceFlags h) k
  obtain ⟨-, -, -, hz, -⟩ := h
  exact hz.trans (modeOrder_eq ..).symm

theorem branchesOn_of_differenceFlags {t : State} {m : CmpMode} {k : Cond} {v : BitVec 2} {a : Addr}
    (h : DifferenceFlags t.params.subCarry x y t.flags) (hmode : t.params.cmpMode = m) :
    BranchesOn k v a t (modeOrder m k x y) :=
  branchesOn_of_condition_eq (hmode ▸ condition_of_differenceFlags h k)

end AfterDifference

section Compared

variable {s t : State}

/-- A CP leaves the flags of its operands' difference, in the polarity of C that is in force after it. -/
theorem exec_cp_differenceFlags {u : BitVec 2} {rs1 rs2 : Reg} (ht : exec (.cp u rs1 rs2) s = .next t) :
    DifferenceFlags t.params.subCarry (s.reg rs1) (s.reg rs2) t.flags := by
  cases ht
  exact subFlags_differenceFlags ..

/-- As after a CP, with the constant for the second operand. -/
theorem exec_cpi_differenceFlags {rd : Reg} {imm : BitVec 8} (ht : exec (.cpi rd imm) s = .next t) :
    DifferenceFlags t.params.subCarry (s.reg rd) imm t.flags := by
  rw [exec_cpi, slit8_eq] at ht
  cases ht
  exact subFlags_differenceFlags ..

theorem exec_cmpMode {i : Instr} {m : CmpMode} (hmode : s.params.cmpMode = m) (ht : exec i s = .next t) :
    t.params.cmpMode = m := by
  rw [(exec_imem_params ht).2, hmode]

/-- After a CP or a CPI the branches decide the order of the mode on the two operands. -/
theorem branchesOn_after_compare {m : CmpMode} (hmode : s.params.cmpMode = m) (k : Cond) (v : BitVec 2) (a : Addr) :
    (∀ u rs1 rs2 t, exec (.cp u rs1 rs2) s = .next t →
      BranchesOn k v a t (modeOrder m k (s.reg rs1) (s.reg rs2))) ∧
    (∀ rd imm t, exec (.cpi rd imm) s = .next t → BranchesOn k v a t (modeOrder m k (s.reg rd) imm)) := by
  refine ⟨fun u rs1 rs2 t ht => ?_, fun rd imm t ht => ?_⟩
  · exact branchesOn_of_differenceFlags (exec_cp_differenceFlags ht) (exec_cmpMode hmode ht)
  · exact branchesOn_of_differenceFlags (exec_cpi_differenceFlags ht) (exec_cmpMode hmode ht)

end Compared

/-- Settles O29: `condition_signed` on any flags; after CP and CPI the sign of the exact difference decides
(`branchesOn_after_compare`, by `sign_xor_overflow`). -/
theorem signedBranchesDecideTheSignedOrder : Obligations.SignedBranchesDecideTheSignedOrder :=
  fun k v a s hmode => ⟨branchesOn_of_condition_eq (condition_signed k s.flags hmode),
    branchesOn_after_compare hmode k v a⟩

/-! ### The two orders against each other -/

section TopBits

variable {x y : Word}

theorem signedOrder_eq_unsignedOrder (htop : x.getLsbD 7 = y.getLsbD 7) (k : Cond) :
    signedOrder k x y = unsignedOrder k x y := by
  refine (condLaws_signedOrder x y).eq_of_eq_of_lt (condLaws_unsignedOrder x y) rfl ?_ k
  rw [word_bit7, word_bit7, decide_eq_decide] at htop
  simp only [signedOrder, unsignedOrder, word_toInt, decide_eq_decide]
  split_ifs <;> omega

/-- Of two words with different top bits the one that is less when signed is the greater when unsigned. -/
theorem signedOrder_eq_not_unsignedOrder (htop : x.getLsbD 7 ≠ y.getLsbD 7) {k : Cond} (heq : k ≠ .EQ) (hneq : k ≠ .NEQ) :
    signedOrder k x y = !unsignedOrder k x y := by
  have hxy : decide (x = y) = false := decide_eq_false fun h => htop (h ▸ rfl)
  have hlt : signedOrder .LT x y = !unsignedOrder .LT x y := by
    have hx := x.isLt
    have hy := y.isLt
    rw [word_bit7, word_bit7, ne_eq, decide_eq_decide] at htop
    simp only [signedOrder, unsignedOrder, word_toInt, ← decide_not, decide_eq_decide]
    split_ifs <;> omega
  have hs := condLaws_signedOrder x y
  have hu := condLaws_unsignedOrder x y
  have hseq : signedOrder .EQ x y = false := hxy
  have hueq : unsignedOrder .EQ x y = false := hxy
  have hle : signedOrder .LET x y = !unsignedOrder .LET x y := by
    rw [hs.le, hu.le, hseq, hueq, hlt, Bool.false_or, Bool.false_or]
  cases k with
  | EQ => exact absurd rfl heq
  | NEQ => exact absurd rfl hneq
  | LT => exact hlt
  | LET => exact hle
  | GT => rw [hs.gt, hu.gt, hle]
  | GET => rw [hs.ge, hu.ge, hlt]

theorem modeOrder_eq_of_topBits (htop : x.getLsbD 7 = y.getLsbD 7) (m : CmpMode) (k : Cond) :
    modeOrder m k x y = unsignedOrder k x y := by
  cases m with
  | signed => exact signedOrder_eq_unsignedOrder htop k
  | unsigned => rfl

end TopBits

/-- Settles O30: `condition_unsigned` on any flags, `branchesOn_after_compare` for CP and CPI; the two orders by the top bits. -/
theorem unsignedBranchesDecideTheUnsignedOrder : Obligations.UnsignedBranchesDecideTheUnsignedOrder := by
  refine ⟨fun k v a s hmode hcarry => ?_, fun k x y => ⟨fun htop => ?_, fun htop heq hneq => ?_⟩⟩
  · exact ⟨branchesOn_of_condition_eq (condition_unsigned k s.flags hmode hcarry),
      branchesOn_after_compare hmode k v a⟩
  · exact signedOrder_eq_unsignedOrder htop k
  · rw [signedOrder_eq_not_unsignedOrder htop heq hneq]
    exact Bool.not_ne_self _

/-! ### After arithmetic and logic -/

section AfterArithmetic

variable {s t : State} {x y : Word}

/-- On the flags of a sum EQ tests it against zero, signed LT the sign of the exact sum, unsigned LT the absence of a carry
(R153). -/
theorem branchesOn_of_sumFlags (h : SumFlags x y t.flags) (v : BitVec 2) (a : Addr) :
    BranchesOn .EQ v a t (decide (x + y = 0)) ∧
    (t.params.cmpMode = .signed → BranchesOn .LT v a t (decide (x.toInt + y.toInt < 0))) ∧
    (t.params.cmpMode = .unsigned → t.params.subCarry = .carry →
      BranchesOn .LT v a t (decide (x.toNat + y.toNat < 256))) := by
  obtain ⟨hc, hn, hz, hov⟩ := h
  refine ⟨branchesOn_of_condition_eq hz, fun hmode => branchesOn_of_condition_eq ?_,
    fun hmode hcarry => branchesOn_of_condition_eq ?_⟩
  · have hexact : (t.flags.n ^^ t.flags.ov) = decide (x.toInt + y.toInt < 0) := by
      rw [hn, hov]
      have hx := word_toInt_bounds x
      have hy := word_toInt_bounds y
      exact sign_xor_overflow (BitVec.toInt_add x y) (by omega) (by omega)
    rw [condition, lessThan, hmode, hexact]
  · rw [condition, lessThan, hmode, hcarry, subCarryFlag, hc, ← decide_not]
    simp

section FlagsWritten

variable (hon : s.params.arithWritesFlags = true)
include hon

theorem State.finishArithmetic_sumFlags (rd : Reg) (x y : Word) :
    SumFlags x y (s.finishArithmetic rd (addFlags x y false)).flags := by
  rw [State.finishArithmetic_flags hon]
  exact addFlags_sumFlags x y

theorem State.finishArithmetic_differenceFlags (rd : Reg) (x y : Word) :
    let t := s.finishArithmetic rd (subFlags s.params.subCarry x y)
    DifferenceFlags t.params.subCarry x y t.flags := by
  intro t
  rw [State.finishArithmetic_flags hon]
  exact subFlags_differenceFlags s.params.subCarry x y

/-- After a logic instruction that writes its flags, Z tells whether the register it wrote is zero (42_logic.md R127). -/
theorem exec_logic_z {i : Instr} {rd : Reg} (hcol : flagsColumn i = .logic)
    (hdest : destination i = some rd) (ht : exec i s = .next t) : t.flags.z = decide (t.reg rd = 0) := by
  obtain ⟨w, f, hw, -⟩ := exec_writes (SameInputs.refl i s) ht ht
  rw [hw.reg, if_pos hdest, hw.flags, hcol, FlagsColumn.written, if_pos hon]
  rfl

end FlagsWritten

end AfterArithmetic

/-- Settles O32: ADD and ADDI leave the flags of a sum (`branchesOn_of_sumFlags`), SUB and SUBI those of a difference
(`branchesOn_of_differenceFlags`), a logic instruction the Z of its result (`exec_logic_z`). -/
theorem branchesAfterArithmeticAndLogic : Obligations.BranchesAfterArithmeticAndLogic := by
  intro s t rd rs1 rs2 imm v a hon afterSum afterDifference
  have hsum {x y : Word} (ht : (.next (s.finishArithmetic rd (addFlags x y false)) : Result) = .next t) : afterSum x y := by
    cases ht
    exact branchesOn_of_sumFlags (State.finishArithmetic_sumFlags hon rd x y) v a
  have hdifference {x y : Word}
      (ht : (.next (s.finishArithmetic rd (subFlags s.params.subCarry x y)) : Result) = .next t) : afterDifference x y := by
    cases ht
    have hflags := State.finishArithmetic_differenceFlags hon rd x y
    exact fun k => ⟨branchesOn_of_differenceFlags hflags, branchesOn_of_differenceFlags hflags⟩
  refine ⟨hsum, hsum, hdifference, hdifference, fun i hcol hdest ht => ?_⟩
  have hz := exec_logic_z hon hcol hdest ht
  refine ⟨branchesOn_of_condition_eq hz, branchesOn_of_condition_eq ?_⟩
  rw [condition, hz, decide_not]

/-! ### The laws of the taken branches -/

/-- A branch reaches its target, whichever it is, exactly when its condition holds: the next address is not every target. -/
theorem exec_branchInstr_reaches_iff (k : Cond) (s : State) :
    (∀ a t, exec (branchInstr k 0 a) s = .next t → t.pc = a) ↔ condition s.params k s.flags = true := by
  refine ⟨fun h => ?_, fun hcond a t ht => by rw [exec_branchInstr_pc ht, if_pos hcond]⟩
  by_contra hcond
  obtain ⟨t, ht⟩ := exec_answers (branchInstr k 0 s.pc) s
  have hpc := exec_branchInstr_pc ht
  rw [if_neg hcond, h _ _ ht] at hpc
  simp at hpc

/-- A difference of zero is not below zero, whichever the mode. -/
theorem condition_lt_eq_false_of_eq {p : Params} {f : Flags} {x y : Word} (h : DifferenceFlags p.subCarry x y f) :
    condition p .EQ f = true → condition p .LT f = false := by
  rw [condition_of_differenceFlags h, condition_of_differenceFlags h, modeOrder_eq, decide_eq_true_eq]
  rintro rfl
  exact modeOrder_lt_self ..

/-- On the flags of a difference of two words with equal top bits the mode makes no difference. -/
theorem condition_with_cmpMode {p : Params} {f : Flags} {x y : Word} (h : DifferenceFlags p.subCarry x y f)
    (htop : x.getLsbD 7 = y.getLsbD 7) (m : CmpMode) (k : Cond) : condition { p with cmpMode := m } k f = condition p k f := by
  have hm : DifferenceFlags { p with cmpMode := m }.subCarry x y f := h
  rw [condition_of_differenceFlags h, condition_of_differenceFlags hm, modeOrder_eq_of_topBits htop,
    modeOrder_eq_of_topBits htop]

/-- Settles O33: a branch is taken when its condition holds (`exec_branchInstr_reaches_iff`), and the conditions obey `CondLaws`;
after CP and CPI EQ excludes LT (`condition_lt_eq_false_of_eq`), and equal top bits make the modes agree
(`condition_with_cmpMode`). R160's example, Z and OV set and N and C clear, has EQ and LT together in both modes. -/
theorem conditionLawsHoldOnAnyFlags : Obligations.ConditionLawsHoldOnAnyFlags := by
  unfold Obligations.ConditionLawsHoldOnAnyFlags
  intro taken exactlyOne modeMakesNoDifference
  have htaken (k : Cond) (s : State) : taken k s ↔ condition s.params k s.flags = true := exec_branchInstr_reaches_iff k s
  have hdifference (t : State) (x y : Word) (h : DifferenceFlags t.params.subCarry x y t.flags) :
      exactlyOne t ∧ (x.getLsbD 7 = y.getLsbD 7 → modeMakesNoDifference t) := by
    refine ⟨?_, fun htop m k => ?_⟩
    · simp only [exactlyOne, htaken]
      exact (condLaws_condition t.params t.flags).exactlyOne (condition_lt_eq_false_of_eq h)
    · simp only [htaken, condition_with_cmpMode h htop]
  refine ⟨fun s => ?_, fun m => ?_, fun s t u rs1 rs2 ht => ?_, fun s t rd imm ht => ?_⟩
  · have hlaws := condLaws_condition s.params s.flags
    simp only [htaken, hlaws.neq, hlaws.le, hlaws.gt, hlaws.ge]
    simp [or_iff_not_imp_left]
  · refine ⟨{ State.reset with
      flags := { c := false, n := false, z := true, ov := true }, params := { defaultParams with cmpMode := m } }, rfl, ?_⟩
    simp only [htaken]
    cases m <;> decide
  · exact hdifference t _ _ (exec_cp_differenceFlags ht)
  · exact hdifference t _ _ (exec_cpi_differenceFlags ht)

end Sys2Proof.Machine
end

section
/-! The instruction of 46_other.md: NOP, its word and its frame. -/

namespace Sys2Proof.Machine

/-- Settles O24: the word is the encoding of NOP, and NOP advances the pc (`exec_nop`), which keeps every other field. -/
theorem nopOnlyAdvancesThePc : Obligations.NopOnlyAdvancesThePc := by
  refine fun u s => ⟨decodesUnused_encode (i := .nop u) rfl, s.advance, exec_nop .., ?_⟩
  exact ⟨pcAdvanced_of_eq s.advance_pc, s.advance_reg, s.advance_flags, fun _ => rfl, fun _ => rfl, s.advance_params⟩

end Sys2Proof.Machine
end

section
/-! Reset and launch: which cells an image defines, and the state the first step starts from (60_exceptions.md R193;
70_reset_and_hazards.md R200, R201). -/

namespace Sys2Proof.Machine

/-! ### Images -/

section Image

variable {w : Nat} {a : Addr}

/-- The last entry of an image for an address is what the cell holds, whatever an earlier one placed there (R193). -/
theorem Memory.read?_ofImage_last (before : List (Addr × BitVec w)) (v : BitVec w) {after : List (Addr × BitVec w)}
    (m : List (Nat × BitVec w)) (h : ∀ e ∈ after, e.1 ≠ a) :
    Memory.read? (Memory.ofImage (before ++ (a, v) :: after) m) a.toNat = some v := by
  rw [Memory.ofImage_append, Memory.ofImage, Memory.read?_ofImage_other _ _ _ h, Memory.read?_write_same]

/-- A cell that an image does not name stays undefined. -/
theorem Memory.read?_ofImage_unnamed {image : List (Addr × BitVec w)} (h : ∀ e ∈ image, e.1 ≠ a) :
    Memory.read? (Memory.ofImage image []) a.toNat = none := by
  rw [Memory.read?_ofImage_other _ _ _ h, Memory.read?_nil]

end Image

theorem State.inv_launch (p : Params) (pc0 : Addr) (regs : Regs) (flags : Flags) (program : List (Addr × InstrWord))
    (data : List (Addr × Word)) : (State.launch p pc0 regs flags program data).Inv :=
  ⟨Memory.wf_ofImage data [] rfl, Memory.wf_ofImage program [] rfl⟩

/-- Settles O2: each memory of the launch is its own image placed in an empty memory, where the last entry for an address stands
(`Memory.read?_ofImage_last`) and nothing else does (`Memory.read?_ofImage_unnamed`). -/
theorem launchDefinesExactlyItsImages : Obligations.LaunchDefinesExactlyItsImages := by
  intro p pc0 regs flags program data s
  refine ⟨rfl, State.inv_launch p pc0 regs flags program data, ?_, fun a h => Memory.read?_ofImage_unnamed h, ?_,
    fun a h => Memory.read?_ofImage_unnamed h⟩
  · rintro a w before after rfl hlast
    exact Memory.read?_ofImage_last before w [] hlast
  · rintro a v before after rfl hlast
    exact Memory.read?_ofImage_last before v [] hlast

/-- Settles O3: the launched pc is `resetPc`, which is 0, so that the word at address 0 is the one fetched. -/
theorem firstInstructionIsAtAddressZero : Obligations.FirstInstructionIsAtAddressZero :=
  fun _ _ _ _ _ _ _ hword hdecode => step_eq_exec hword hdecode

/-- Settles O1: each field of `State.reset` as its definition has it, register by register and with both memories empty. -/
theorem resetStateIsAsLogged : Obligations.ResetStateIsAsLogged := by
  refine ⟨rfl, fun r => ?_, rfl, fun a => Memory.read?_nil a.toNat, fun a => Memory.read?_nil a.toNat, rfl⟩
  cases r <;> rfl

/-- Settles O44: both memories are empty after reset (`State.wf_reset`). -/
theorem resetMeetsTheMemoryInvariant : Obligations.ResetMeetsTheMemoryInvariant :=
  State.wf_reset

end Sys2Proof.Machine
end

section
/-! Where a step stops and where a run ends (60_exceptions.md R180, R181, R192; 70_reset_and_hazards.md R200). -/

namespace Sys2Proof.Machine

theorem step_eq_fault {s : State} (hfetch : s.fetch = none) : step s = .fault .undefinedProgramWord := by
  simp only [step, hfetch]

/-- Settles O34: `exec_answers`. -/
theorem everyInstructionAnswersANextState : Obligations.EveryInstructionAnswersANextState :=
  exec_answers

/-- Settles O5: an undefined word faults (`step_eq_fault`), an invalid one is refused (`step_eq_refused`), and an instruction
answers (`exec_answers`); the three outcomes exclude each other. -/
theorem stepStopsOnlyOnUndefinedOrInvalidWords : Obligations.StepStopsOnlyOnUndefinedOrInvalidWords := by
  intro s
  cases hword : s.instrWord s.pc with
  | none => exact ⟨iff_of_true ⟨_, step_eq_fault hword⟩ rfl, nofun⟩
  | some w =>
    cases hdecode : decode s.params.strictUnused w with
    | invalid why => simp [step_eq_refused hword hdecode, hdecode]
    | instr i =>
      obtain ⟨t, ht⟩ := exec_answers i s
      simp [step_eq_exec hword hdecode, ht, hdecode]

/-! ### The final state -/

/-- A state is final exactly when a B to the pc stands at the pc (R192). -/
theorem isFinal_iff (s : State) :
    s.isFinal = true ↔ ∃ w u, s.fetch = some w ∧ decode s.params.strictUnused w = .instr (.b u s.pc) := by
  unfold State.isFinal
  split
  · next hfetch => simp [hfetch]
  · next w hfetch =>
    split
    · next u a hdecode => simp [hfetch, hdecode]
    · next hother => simpa [hfetch] using fun u => hother u s.pc

/-- A B to its own address leaves the whole state as it is (R130). -/
theorem step_of_isFinal {s : State} (h : s.isFinal = true) : step s = .next s := by
  obtain ⟨w, u, hfetch, hdecode⟩ := (isFinal_iff s).mp h
  rw [step_eq_exec hfetch hdecode, exec_b, State.jump_self]

/-- A state that one step leaves as it is, any number of steps leave as it is. -/
theorem run_of_step_self (M : Host.Core) {s : M.State} (h : M.step s = .next s) (n : Nat) : M.run n s = .next s := by
  induction n with
  | zero => rfl
  | succ n ih =>
    rw [Host.Core.run, h]
    exact ih

/-- Settles O42: a final state has a B to its own pc there (`isFinal_iff`), so that a step is a jump to where the pc is
(`step_of_isFinal`), and a run repeats it (`run_of_step_self`). -/
theorem finalStateIsAFixedPoint : Obligations.FinalStateIsAFixedPoint :=
  fun s => ⟨isFinal_iff s, fun h => ⟨step_of_isFinal h, run_of_step_self Sys2Proof.core (step_of_isFinal h)⟩⟩

end Sys2Proof.Machine
end

section
/-! The unsigned conditions under `SUB_CARRY = borrow` (92_eei_decisions.md D6; log 8). -/

namespace Sys2Proof.Machine

/-- Under `SUB_CARRY = borrow` the unsigned conditions are the equations of R152 on the inverted C (D6; log 8). -/
theorem condition_unsigned_borrow {p : Params} (hmode : p.cmpMode = .unsigned) (hborrow : p.subCarry = .borrow)
    (k : Cond) (f : Flags) : condition p k f = unsignedEquation k { f with c := !f.c } := by
  refine (condLaws_condition p f).eq_of_eq_of_lt (condLaws_unsignedEquation { f with c := !f.c }) ?_ ?_ k
  · exact (beq_true f.z).symm
  · simp [condition, lessThan, hmode, hborrow, subCarryFlag, unsignedEquation]

/-- Settles O28: a branch goes by `condition`, which reads C inverted (`condition_unsigned_borrow`). -/
theorem borrowPolarityInvertsCInUnsignedConditions : Obligations.BorrowPolarityInvertsCInUnsignedConditions :=
  fun k _ _ s hmode hborrow => branchesOn_of_condition_eq (condition_unsigned_borrow hmode hborrow k s.flags)

/-- Settles O31: a comparison inverts C and the condition inverts it again, so that `branchesOn_after_compare` holds under either
polarity (`lessThan_of_differenceFlags`). -/
theorem borrowPolarityKeepsTheUnsignedOrder : Obligations.BorrowPolarityKeepsTheUnsignedOrder :=
  fun k v a _ hmode _ => branchesOn_after_compare hmode k v a

end Sys2Proof.Machine
end
